-- ==== Sys2Proof/Word.lean ====
section
/-! DEFINITION. The machine's words (00_scope.md R7, R9): 32-bit registers and addresses, 8-bit
memory cells. -/

namespace Sys2Proof

/-- A register of the window, or a data-memory address as software writes it (`ADDR_W` = 32, R7). -/
abbrev Word := BitVec 32

/-- One cell of the data memory, and one channel of an output pixel (R60, R66). -/
abbrev Byte := BitVec 8

end Sys2Proof
end

