-- ==== Sys2Proof/Config.lean ====
section
/-! DEFINITION. What an implementation fixes (00_scope.md R7) and the free values of the model. -/

namespace Sys2Proof

/-- `HARD_ALPHA_MODE` (R7, R220, U16): the alpha of a flat endpoint in a PVRTC2 hard quadrant. -/
inductive HardAlphaMode where
  | zero
  | endpoint
  deriving DecidableEq, Repr

/-- How long the host must leave the registers alone. The spec's rules disagree and 90_conflicts.md does
not name the point (log 7), so it is a parameter. -/
inductive RegWriteDuty where
  /-- While STATE = BUSY (10_state.md R32, R35, R37, R305, rulings D28 and D38). -/
  | whileBusy
  /-- From START until the host has read STATUS with STATE ≠ BUSY (70_reset_and_hazards.md R344(a)). -/
  | untilStatusRead
  deriving DecidableEq, Repr

/-- The parameters of R7 that the spec leaves OPEN or lets an implementation choose, and
the model's own `regWriteDuty`.
"OPEN means the model takes the parameter as an argument": a state carries one value of this
structure, no step changes it, and a statement over all states is a statement over all parameters. -/
structure Params where
  /-- `MEM_SIZE`, the number of bytes of the data memory. -/
  memSize : Nat
  /-- `REG_BASE`, where the host sees the register window. -/
  regBase : Nat
  /-- `NUM_UNITS`, the parallel units inside one command; unobservable (R151, R227, R308): no
  meaning reads it. -/
  numUnits : Nat
  /-- `HARD_ALPHA_MODE`. -/
  hardAlpha : HardAlphaMode
  /-- Which rule bounds the host's duty about register writes (log 7). -/
  regWriteDuty : RegWriteDuty
  deriving DecidableEq, Repr

/-- The parameters `State.reset` carries. `hardAlpha` is R7's stated value. DESIGN CHOICE (log 1):
`MEM_SIZE`, `REG_BASE` and `NUM_UNITS` are OPEN; 0x10000 is the value of 95_test_vectors.md's common
start state. DESIGN CHOICE (log 7): `regWriteDuty` is the one of 10_state.md. -/
def Params.default : Params :=
  { memSize := 0x10000, regBase := 0, numUnits := 1, hardAlpha := .zero, regWriteDuty := .whileBusy }

/-- `ID_VALUE` (R7, R24). -/
def idValue : Word := 0x50564452#32

/-- A FREE VALUE (U11, log 5): the byte number `n`, counted over the whole run, that a reset during
BUSY leaves in the abandoned command's destination region (R341: "any byte value, which a model may
choose freely"). No body: nothing can be proved of a value of it. -/
opaque Config.freeByte : Nat → Byte

end Sys2Proof
end

