-- ==== Sys2Proof/Syntax.lean ====
section
/-! DEFINITION. The instructions: one constructor per row of spec/opcode_table.json, in the order of
the opcode map (30_encoding.md R92). A PVRDEC "instruction" is a command: it has no operand field in
its word (R90); its operands are the six latched argument registers. -/

namespace Sys2Proof

/-- The operations of R92. -/
inductive Instr where
  /-- OP 0x00, R240. -/
  | pvrtc1_2bpp
  /-- OP 0x01, R241. -/
  | pvrtc1_4bpp
  /-- OP 0x02, R242. -/
  | pvrtc2_2bpp
  /-- OP 0x03, R243. -/
  | pvrtc2_4bpp
  /-- OP 0x10, R160. -/
  | l8
  /-- OP 0x11, R161. -/
  | a8
  /-- OP 0x12, R162. -/
  | r8
  /-- OP 0x13, R163. -/
  | l8a8
  /-- OP 0x14, R164. -/
  | r8g8
  /-- OP 0x15, R165. -/
  | r5g6b5
  /-- OP 0x16, R166. -/
  | r5g5b5a1
  /-- OP 0x17, R167. -/
  | r4g4b4a4
  /-- OP 0x18, R168. -/
  | r16
  /-- OP 0x19, R169. -/
  | r8g8b8
  /-- OP 0x1A, R170. -/
  | r8g8b8a8
  /-- OP 0x1B, R171. -/
  | b8g8r8a8
  /-- OP 0x1C, R172. -/
  | r10g10b10a2
  /-- OP 0x1D, R173. -/
  | r16g16
  /-- OP 0x1E, R174. -/
  | r32
  /-- OP 0x1F, R175. -/
  | r16g16b16
  /-- OP 0x20, R176. -/
  | r16g16b16a16
  /-- OP 0x21, R177. -/
  | r32g32
  /-- OP 0x22, R178. -/
  | r32g32b32
  /-- OP 0x23, R179. -/
  | r32g32b32a32
  deriving DecidableEq, Repr

end Sys2Proof
end

