-- ==== Sys2Proof/WellFormed.lean ====
section
/-! DEFINITION. Well-formedness. A command word has no operand field (30_encoding.md R90, R96), so
every term of `Instr` is well formed; what can be ill formed is the parameter set of a machine
(00_scope.md R7). -/

namespace Sys2Proof

/-- Every instruction is well formed: R92's rows have no operand field to check. -/
def Instr.wf (_ : Instr) : Bool := true

/-- R7: `1 ≤ MEM_SIZE ≤ 2^32`; `NUM_UNITS` counts the units working on a command, so it is at least
one. R7 puts no condition on `REG_BASE`. -/
def Params.wf (p : Params) : Bool :=
  decide (1 ≤ p.memSize) && decide (p.memSize ≤ 2 ^ 32) && decide (1 ≤ p.numUnits)

end Sys2Proof
end

