-- ==== Sys2Proof/Decode.lean ====
section
/-! DEFINITION. The command word (30_encoding.md R90 to R96): the decoder, total on every 32-bit
word and rejecting by name, and after it the encoder, each written from the opcode map of R92. -/

namespace Sys2Proof

/-- The two ways a command word names no operation. -/
inductive DecodeError where
  /-- `CMD[31:8] ≠ 0` (R94). -/
  | illegalCmd
  /-- `CMD[31:8] = 0` and the OP is unassigned: 0x04 to 0x0F or 0x24 to 0xFF (R93). -/
  | unsupported
  deriving DecidableEq, Repr

/-- `CMD[7:0]`, the operation code (R90). -/
def opField (w : Word) : Nat := w.toNat % 2 ^ 8

/-- `CMD[31:8]`, the reserved field (R90). -/
def rsvdField (w : Word) : Nat := w.toNat / 2 ^ 8

/-- The opcode map of R92, from operation codes to operations. -/
def instrOfOp (op : Nat) : Option Instr :=
  match op with
  | 0x00 => some .pvrtc1_2bpp
  | 0x01 => some .pvrtc1_4bpp
  | 0x02 => some .pvrtc2_2bpp
  | 0x03 => some .pvrtc2_4bpp
  | 0x10 => some .l8
  | 0x11 => some .a8
  | 0x12 => some .r8
  | 0x13 => some .l8a8
  | 0x14 => some .r8g8
  | 0x15 => some .r5g6b5
  | 0x16 => some .r5g5b5a1
  | 0x17 => some .r4g4b4a4
  | 0x18 => some .r16
  | 0x19 => some .r8g8b8
  | 0x1A => some .r8g8b8a8
  | 0x1B => some .b8g8r8a8
  | 0x1C => some .r10g10b10a2
  | 0x1D => some .r16g16
  | 0x1E => some .r32
  | 0x1F => some .r16g16b16
  | 0x20 => some .r16g16b16a16
  | 0x21 => some .r32g32
  | 0x22 => some .r32g32b32
  | 0x23 => some .r32g32b32a32
  | _ => none

/-- Decode a command word. The reserved bits are checked before the operation code, in the order of
60_exceptions.md R301. -/
def decode (w : Word) : Except DecodeError Instr :=
  if rsvdField w ≠ 0 then .error .illegalCmd
  else
    match instrOfOp (opField w) with
    | some i => .ok i
    | none => .error .unsupported

/-- The OP column of R92. -/
def Instr.op : Instr → Byte
  | .pvrtc1_2bpp => 0x00#8
  | .pvrtc1_4bpp => 0x01#8
  | .pvrtc2_2bpp => 0x02#8
  | .pvrtc2_4bpp => 0x03#8
  | .l8 => 0x10#8
  | .a8 => 0x11#8
  | .r8 => 0x12#8
  | .l8a8 => 0x13#8
  | .r8g8 => 0x14#8
  | .r5g6b5 => 0x15#8
  | .r5g5b5a1 => 0x16#8
  | .r4g4b4a4 => 0x17#8
  | .r16 => 0x18#8
  | .r8g8b8 => 0x19#8
  | .r8g8b8a8 => 0x1A#8
  | .b8g8r8a8 => 0x1B#8
  | .r10g10b10a2 => 0x1C#8
  | .r16g16 => 0x1D#8
  | .r32 => 0x1E#8
  | .r16g16b16 => 0x1F#8
  | .r16g16b16a16 => 0x20#8
  | .r32g32 => 0x21#8
  | .r32g32b32 => 0x22#8
  | .r32g32b32a32 => 0x23#8

/-- The command word of an instruction: `{RSVD = 0, OP}` (R90, R92). -/
def encode (i : Instr) : Word := 0#24 ++ i.op

/-- The instruction the decoder reads from an instruction of spec/opcode_table.json's numbering: the
command is ONE 32-bit register word (R96), so the table's bit `n` is bit `n` of `CMD`; bits above
`nbits` are zero. DEDUCED (log 13). -/
def decodeTableWord (nbits w : Nat) : Option Instr :=
  if w % 2 ^ nbits < 2 ^ 32 then
    match decode (BitVec.ofNat 32 (w % 2 ^ nbits)) with
    | .ok i => some i
    | .error _ => none
  else none

end Sys2Proof
end

