-- ==== Sys2Proof/Machine/State.lean ====
section
/-! DEFINITION. The state of PVRDEC (10_state.md R20 to R42, 20_memory.md R60) with the host's pending
inputs, the reasons a step can stop, and the state after reset (R42, R340). -/

namespace Sys2Proof.Machine

/-- STATUS.STATE (R33). -/
inductive EngineState where
  /-- 0: no command since reset. -/
  | idle
  /-- 1: a command is running. -/
  | busy
  /-- 2: the last command completed and its raster is in memory. -/
  | done
  /-- 3: the last command was rejected. -/
  | error
  deriving DecidableEq, Repr

/-- STATUS.ERR (R33, 60_exceptions.md R300). Codes 7 to 15 are never produced (U17). -/
inductive ErrCode where
  | none
  | illegalCmd
  | unsupported
  | range
  | dstShort
  | srcShort
  | overlap
  deriving DecidableEq, Repr

/-- The two fields of STATUS (R33); its other bits are hardwired to 0 and stand in `Status.word`. -/
structure Status where
  state : EngineState
  err : ErrCode
  deriving DecidableEq, Repr

/-- The seven words a START copies (R36): once as the registers CMD to DST_LEN of R25 to R31, once as
the latch of the running command. -/
structure Args where
  cmd : Word
  width : Word
  height : Word
  srcBase : Word
  srcLen : Word
  dstBase : Word
  dstLen : Word
  deriving DecidableEq, Repr

/-- Every argument register at its reset value (R42). -/
def Args.zero : Args :=
  { cmd := 0, width := 0, height := 0, srcBase := 0, srcLen := 0, dstBase := 0, dstLen := 0 }

/-- The named registers of the window (R23, R105). -/
inductive RegName where
  | id
  | cmd
  | width
  | height
  | srcBase
  | srcLen
  | dstBase
  | dstLen
  | ctrl
  | status
  deriving DecidableEq, Repr

/-- The data memory (R60) as address and byte pairs. Canonical form (`Memory.wf`, Machine/Ops.lean):
addresses strictly rising, no entry equal to what an unlisted address reads as. -/
abbrev Memory := List Host.Cell

/-- What the host can do at one of its steps (R15, R105, R340). -/
inductive HostOp where
  /-- A bus write of `value`, `bits` wide, at bus address `addr` (`WR`). -/
  | regWrite (addr bits : Nat) (value : Word)
  /-- A bus read, `bits` wide, at bus address `addr` (`RD`). -/
  | regRead (addr bits : Nat)
  /-- `MW addr, b0 b1 …`: the host writes bytes of the data memory. -/
  | memWrite (addr : Nat) (bytes : List Byte)
  /-- `MR addr, n`: the host reads bytes of the data memory. -/
  | memRead (addr count : Nat)
  /-- `POLL`: read STATUS until STATE is DONE or ERROR. -/
  | poll
  /-- The reset input of R340. -/
  | reset
  deriving DecidableEq, Repr

/-- What a host read returned: the value "written after -> in traces" (R105). -/
inductive HostObs where
  | regValue (addr : Nat) (value : Word)
  | memBytes (addr : Nat) (bytes : List Byte)
  deriving DecidableEq, Repr

/-- The two agents (R15). -/
inductive Agent where
  | host
  | engine
  deriving DecidableEq, Repr

/-- The kinds of `fault HostHazard(kind)` (R305). -/
inductive HazardKind where
  /-- A register access that is not 32 bits wide at a multiple of 4 inside the window (R35(a)). -/
  | regAccess
  /-- A write to any register while STATE = BUSY (R35(b)); under `RegWriteDuty.untilStatusRead` also
  after it and before the host has read STATUS (R344(a); DESIGN CHOICE of the kind, log 11). -/
  | regWriteBusy
  /-- A host access to the source or destination bytes of a command while STATE = BUSY, or after it and
  before the host has read STATUS (R344(b), (c); DESIGN CHOICE of the kind after BUSY, log 11). -/
  | memBusy
  deriving DecidableEq, Repr

/-- Why a step stops with a fault. Only the host's own steps fault; no command does. -/
inductive Fault where
  /-- `fault HostHazard(kind)` of R305, raised by a host register or memory access that breaks a duty
  (Machine/HostPort.lean). Safe: "a model stops at it, and no theorem may hold past it". -/
  | hostHazard (kind : HazardKind)
  /-- A host memory access at an address that does not exist (R60: addresses 0 to MEM_SIZE − 1),
  raised by `hostStep` (Machine/HostPort.lean). Safe: the machine stops. -/
  | hostOutsideMemory
  deriving DecidableEq, Repr

/-- Why a step is refused. -/
inductive Refusal where
  /-- An instruction of the opcode table that has no meaning yet, raised by its arm of `exec` alone.
  Safe: the machine stops. No arm of this model answers it. -/
  | notModelled (mnemonic : String)
  deriving DecidableEq, Repr

/-- The state. R20 gives the machine the registers, the latch and the data memory; ID, CTRL and the
reserved offsets are constants of `readReg`. The last six fields are the model's own: the machine's
parameters and what the environment does, as plain data (logs 1, 2, 3, 5 and 7). -/
structure State where
  /-- CMD, WIDTH, HEIGHT, SRC_BASE, SRC_LEN, DST_BASE and DST_LEN (R25 to R31). -/
  regs : Args
  /-- STATUS (R33). -/
  status : Status
  /-- The command copy latched at START (R36). -/
  latch : Args
  /-- The data memory (R40, R60). -/
  mem : Memory
  /-- MEM_SIZE, REG_BASE, NUM_UNITS and HARD_ALPHA_MODE (R7), and the reading of R344(a) (log 7); no
  step changes them. -/
  params : Params
  /-- The host's coming steps, the next one first. -/
  hostQueue : List HostOp
  /-- Which agent moves at the coming steps (U14, R346); when it is empty a BUSY engine moves. -/
  schedule : List Agent
  /-- What the host has read, the latest first. -/
  trace : List HostObs
  /-- The commands started since the last host read of STATUS with STATE ≠ BUSY, the latest first
  (R71(c), R344). -/
  unread : List Args
  /-- How many free bytes the run has used (`Config.freeByte`, R341). -/
  freeCount : Nat
  deriving DecidableEq, Repr

/-- The machine right after reset (R42, R340): registers and latch zero, STATUS zero (IDLE, NONE),
nothing in memory (R343: "whatever the platform gives it"). DESIGN CHOICE: the latch (log 4), the
contents of unlisted memory (log 6), the parameters (log 1), and the environment's lists, which are
empty (log 2). -/
def State.reset : State :=
  { regs := .zero, status := { state := .idle, err := .none }, latch := .zero, mem := [],
    params := .default, hostQueue := [], schedule := [], trace := [], unread := [],
    freeCount := 0 }

end Sys2Proof.Machine
end

