-- ==== Sys2Proof/Machine/Flags.lean ====
section
/-! DEFINITION. STATUS, the only flags of the machine (10_state.md R38): the codes of its fields, the
word a host reads, and the checks of 60_exceptions.md R301 that decide STATUS.ERR. -/

namespace Sys2Proof.Machine

/-- `STATUS[1:0]` (R33). -/
def EngineState.code : EngineState → BitVec 2
  | .idle => 0
  | .busy => 1
  | .done => 2
  | .error => 3

/-- `STATUS[11:8]` (R33, R300). -/
def ErrCode.code : ErrCode → BitVec 4
  | .none => 0
  | .illegalCmd => 1
  | .unsupported => 2
  | .range => 3
  | .dstShort => 4
  | .srcShort => 5
  | .overlap => 6

/-- The value of the STATUS register: `STATUS[31:12]` and `STATUS[7:2]` are hardwired to 0 (R33). -/
def Status.word (st : Status) : Word :=
  0#20 ++ st.err.code ++ 0#6 ++ st.state.code

/-- The ERR code of a command word that names no operation (R300, R93, R94). -/
def errOfDecode : DecodeError → ErrCode
  | .illegalCmd => .illegalCmd
  | .unsupported => .unsupported

/-- `need_dst = W * H * 4` (R67, R301), exact (R95). -/
def needDst (a : Args) : Nat := a.width.toNat * a.height.toNat * 4

/-- The half-open ranges `[a, a + m)` and `[b, b + n)` share a byte. -/
def rangesMeet (a m b n : Nat) : Bool :=
  decide (0 < m) && decide (0 < n) && decide (a < b + n) && decide (b < a + m)

/-- The checks of R301 that follow the command word's, in their order; the first that fails decides
the code. `needSrc` is the operation's own length rule (R150, R228). -/
def regionError (memSize : Nat) (needSrc : Args → Nat) (a : Args) : Option ErrCode :=
  if memSize < a.srcBase.toNat + a.srcLen.toNat ∨ memSize < a.dstBase.toNat + a.dstLen.toNat then
    some .range
  else if a.dstLen.toNat < needDst a then some .dstShort
  else if a.srcLen.toNat < needSrc a then some .srcShort
  else if rangesMeet a.srcBase.toNat (needSrc a) a.dstBase.toNat (needDst a) then some .overlap
  else none

end Sys2Proof.Machine
end

