-- ==== Sys2Proof/Machine/Ops.lean ====
section
/-! DEFINITION. The shared operations: data memory (20_memory.md R65, R66), registers (10_state.md
R23 to R35), and the two transitions of STATUS (R37) with the error entry (60_exceptions.md R302). -/

namespace Sys2Proof.Machine

/-! ### Data memory -/

/-- What an address with no entry reads as. DESIGN CHOICE (log 6): R343 leaves the initial contents
to the platform; 95_test_vectors.md's programs start from zero bytes. -/
def Memory.unlisted : Byte := 0

/-- One byte of the data memory. -/
def Memory.read (m : Memory) (addr : Nat) : Byte := (m.lookup addr).getD Memory.unlisted

/-- `count` bytes from `addr` on. -/
def Memory.readBytes (m : Memory) (addr count : Nat) : List Byte :=
  (List.range count).map fun k => m.read (addr + k)

/-- `MemRead(addr, n)` (R65): `n` bytes assembled little-endian into an unsigned value. -/
def Memory.readLE (m : Memory) (addr : Nat) : Nat → Nat
  | 0 => 0
  | n + 1 => (m.read addr).toNat + 256 * m.readLE (addr + 1) n

/-- The entries that the bytes `bs`, stored from `addr` on, leave in a canonical memory. -/
def Memory.cells (addr : Nat) : List Byte → Memory
  | [] => []
  | b :: bs =>
    if b = Memory.unlisted then Memory.cells (addr + 1) bs
    else (addr, b) :: Memory.cells (addr + 1) bs

/-- Store the bytes `bs` at `addr`, `addr + 1`, … (the byte stores of R66, all at once). -/
def Memory.write (m : Memory) (addr : Nat) (bs : List Byte) : Memory :=
  m.filter (fun c => decide (c.1 < addr)) ++
    (Memory.cells addr bs ++ m.filter (fun c => decide (addr + bs.length ≤ c.1)))

/-- The canonical form: addresses strictly rising and no entry at the value of an unlisted address. -/
def Memory.wf : Memory → Bool
  | [] => true
  | c :: m => decide (c.2 ≠ Memory.unlisted) && m.all (fun d => decide (c.1 < d.1)) && Memory.wf m

/-- No entry lies at or beyond `size` (R60: addresses 0 to MEM_SIZE − 1). -/
def Memory.below (m : Memory) (size : Nat) : Bool := m.all fun c => decide (c.1 < size)

/-! ### Output pixels -/

/-- An output pixel (R66, R149, R226). -/
structure Rgba where
  r : Byte
  g : Byte
  b : Byte
  a : Byte
  deriving DecidableEq, Repr

/-- Narrow four channel values to an output pixel. Every caller's values are in 0..255 (R143, R223). -/
def Rgba.ofNat (r g b a : Nat) : Rgba :=
  { r := BitVec.ofNat 8 r, g := BitVec.ofNat 8 g, b := BitVec.ofNat 8 b, a := BitVec.ofNat 8 a }

/-- The pixel (0, 0, 0, 0) of R201, R221 and R225. -/
def Rgba.clear : Rgba := Rgba.ofNat 0 0 0 0

/-- The bytes of a pixel at rising addresses: R, G, B, A (R66). -/
def Rgba.bytes (p : Rgba) : List Byte := [p.r, p.g, p.b, p.a]

/-- The `W × H` raster of a pixel function, row-major and with no padding (R140, R149, R226). -/
def rasterBytes (width height : Nat) (pixel : Nat → Nat → Rgba) : List Byte :=
  (List.range height).flatMap fun y => (List.range width).flatMap fun x => (pixel x y).bytes

/-! ### Registers -/

/-- The offset of a register in the window (R23). -/
def RegName.offset : RegName → Nat
  | .id => 0x00
  | .cmd => 0x04
  | .width => 0x08
  | .height => 0x0C
  | .srcBase => 0x10
  | .srcLen => 0x14
  | .dstBase => 0x18
  | .dstLen => 0x1C
  | .ctrl => 0x20
  | .status => 0x24

/-- The register at an offset of the window; none at the reserved offsets (R23, R34). -/
def regAt (offset : Nat) : Option RegName :=
  match offset with
  | 0x00 => some .id
  | 0x04 => some .cmd
  | 0x08 => some .width
  | 0x0C => some .height
  | 0x10 => some .srcBase
  | 0x14 => some .srcLen
  | 0x18 => some .dstBase
  | 0x1C => some .dstLen
  | 0x20 => some .ctrl
  | 0x24 => some .status
  | _ => none

/-- The offset of a legal register access (R35(a)): 32 bits wide, at an offset that is a multiple of
4 inside the 64-byte window at REG_BASE; none for any other access. DESIGN CHOICE (log 17): bus
addresses are natural numbers. -/
def accessOffset (p : Params) (addr bits : Nat) : Option Nat :=
  if bits = 32 ∧ p.regBase ≤ addr ∧ addr < p.regBase + 64 ∧ (addr - p.regBase) % 4 = 0 then
    some (addr - p.regBase)
  else none

/-- The value of a register (R23): ID is a constant (R24), CTRL reads 0 (R32). -/
def readReg (s : State) : RegName → Word
  | .id => idValue
  | .cmd => s.regs.cmd
  | .width => s.regs.width
  | .height => s.regs.height
  | .srcBase => s.regs.srcBase
  | .srcLen => s.regs.srcLen
  | .dstBase => s.regs.dstBase
  | .dstLen => s.regs.dstLen
  | .ctrl => 0
  | .status => s.status.word

/-- The value at an offset of the window; the reserved offsets read as 0 (R34). -/
def readOffset (s : State) (offset : Nat) : Word :=
  match regAt offset with
  | some r => readReg s r
  | none => 0

/-! ### The transitions of STATUS -/

/-- START (R32, R36, R37): latch the arguments and become BUSY with ERR = NONE. It is also the only
way out of ERROR besides reset (R303): there is no return instruction. DEDUCED (log 19): a START that
follows a completion without a STATUS read between sees the bytes that completion wrote. -/
def State.start (s : State) : State :=
  { s with
    latch := s.regs
    status := { state := .busy, err := .none }
    unread := s.regs :: s.unread }

/-- The DONE completion (R37): every byte of the raster lands at DST_BASE at once (R67, R68). -/
def State.complete (s : State) (raster : List Byte) : State :=
  { s with
    status := { state := .done, err := .none }
    mem := s.mem.write s.latch.dstBase.toNat raster }

/-- The error entry (R302): STATUS records the code, and nothing else changes. -/
def State.enterError (s : State) (code : ErrCode) : State :=
  { s with status := { state := .error, err := code } }

/-- The part of Execute (R301) that follows the choice of the operation: the region checks, then the
operation's raster, then completion. -/
def runCommand (needSrc : Args → Nat) (raster : State → List Byte) (s : State) :
    Host.Outcome State Fault Refusal :=
  match regionError s.params.memSize needSrc s.latch with
  | some code => .next (s.enterError code)
  | none => .next (s.complete (raster s))

/-- A write to a register of the window while STATE ≠ BUSY (R35(c)): an RW register takes all 32 bits,
CTRL starts a command when bit 0 is 1 and ignores every other bit (R32), and ID and STATUS ignore the
write. -/
def writeReg (s : State) (r : RegName) (v : Word) : State :=
  match r with
  | .id => s
  | .cmd => { s with regs := { s.regs with cmd := v } }
  | .width => { s with regs := { s.regs with width := v } }
  | .height => { s with regs := { s.regs with height := v } }
  | .srcBase => { s with regs := { s.regs with srcBase := v } }
  | .srcLen => { s with regs := { s.regs with srcLen := v } }
  | .dstBase => { s with regs := { s.regs with dstBase := v } }
  | .dstLen => { s with regs := { s.regs with dstLen := v } }
  | .ctrl => if v[0] then s.start else s
  | .status => s

/-- The same by offset; a write to a reserved offset is ignored (R34). -/
def writeOffset (s : State) (offset : Nat) (v : Word) : State :=
  match regAt offset with
  | some r => writeReg s r v
  | none => s

end Sys2Proof.Machine
end

