-- ==== Sys2Proof/Machine/Operands.lean ====
section
/-! DEFINITION. The operand forms: bit fields (00_scope.md R9), the channels of the pixel formats
(40_pixel_formats.md R142 to R144) and the fields of a PVRTC word (30_encoding.md R97 to R100 with
41_pvrtc.md R206 to R214). Arithmetic is over the unbounded integers of R10. -/

namespace Sys2Proof.Machine

/-! ### Bit fields -/

/-- `v[hi:lo]` (R9). -/
def bits (v hi lo : Nat) : Nat := (v / 2 ^ lo) % 2 ^ (hi - lo + 1)

/-- `v[i]` (R9). -/
def bit (v i : Nat) : Nat := bits v i i

/-- `v` with bit `i` replaced by `b` (the assignments `m[i] <- b` of R214). -/
def setBit (v i b : Nat) : Nat := v - bit v i * 2 ^ i + b * 2 ^ i

/-! ### Channels of the pixel formats -/

/-- The loop of R144: append `v` until 8 bits are full. `fuel` bounds the rounds; eight suffice since
each adds at least one bit. -/
def rep8Loop (v b : Nat) : (fuel t n : Nat) → Nat
  | 0, t, n => t >>> (n - 8)
  | fuel + 1, t, n =>
    if n < 8 then rep8Loop v b fuel ((t <<< b) ||| v) (n + b) else t >>> (n - 8)

/-- Widening by bit replication, for `1 ≤ b ≤ 7` (R144). -/
def rep8 (v b : Nat) : Nat := rep8Loop v b 8 0 0

/-- Normalisation of a `b`-bit channel to 8 bits (R143): truncation above 8 bits, replication below. -/
def n8 (v b : Nat) : Nat :=
  if b = 8 then v
  else if 8 < b then v >>> (b - 8)
  else rep8 v b

/-! ### PVRTC words -/

/-- The variant V of a PVRTC operation (R91). -/
inductive Variant where
  | pvrtc1
  | pvrtc2
  deriving DecidableEq, Repr

/-- The bpp mode M of a PVRTC operation (R91). -/
inductive Bpp where
  | two
  | four
  deriving DecidableEq, Repr

/-- A PVRTC word (R97, R204): modulationData and colorData. -/
structure PvrtcWord where
  mod : Nat
  col : Nat
  deriving DecidableEq, Repr

/-- A colour in working precision (41_pvrtc.md section 2) or in 8-bit precision (R219, R220). -/
structure Colour where
  r : Nat
  g : Nat
  b : Nat
  a : Nat
  deriving DecidableEq, Repr

/-- The low 4-bit channel `v` widened to 5 bits: `(v << 1) | (v >> 3)` (R206, R207). -/
def widen4to5 (v : Nat) : Nat := (v <<< 1) ||| (v >>> 3)

/-- A 3-bit channel widened to 5 bits: `(v << 2) | (v >> 1)` (R206). -/
def widen3to5 (v : Nat) : Nat := (v <<< 2) ||| (v >>> 1)

/-- PVRTC1 endpoint A (R98, R206). -/
def colourA1 (col : Nat) : Colour :=
  if bit col 15 = 1 then
    { r := bits col 14 10, g := bits col 9 5, b := widen4to5 (bits col 4 1), a := 15 }
  else
    { r := widen4to5 (bits col 11 8), g := widen4to5 (bits col 7 4),
      b := widen3to5 (bits col 3 1), a := bits col 14 12 <<< 1 }

/-- PVRTC1 endpoint B (R98, R207). -/
def colourB1 (col : Nat) : Colour :=
  if bit col 31 = 1 then
    { r := bits col 30 26, g := bits col 25 21, b := bits col 20 16, a := 15 }
  else
    { r := widen4to5 (bits col 27 24), g := widen4to5 (bits col 23 20),
      b := widen4to5 (bits col 19 16), a := bits col 30 28 <<< 1 }

/-- Endpoint A of either variant (R206, R208): in PVRTC2 bit 31 chooses A's layout. -/
def colourA (v : Variant) (col : Nat) : Colour :=
  match v with
  | .pvrtc1 => colourA1 col
  | .pvrtc2 => colourA1 ((col &&& 0x7FFF) ||| (bit col 31 <<< 15))

/-- Endpoint B of either variant (R207, R208). -/
def colourB (v : Variant) (col : Nat) : Colour :=
  match v with
  | .pvrtc1 => colourB1 col
  | .pvrtc2 => colourB1 col

/-- The hard flag (R99, R208): bit 15 in PVRTC2, 0 for every PVRTC1 word. -/
def isHard (v : Variant) (col : Nat) : Bool :=
  match v with
  | .pvrtc1 => false
  | .pvrtc2 => decide (bit col 15 = 1)

/-- The modulation-mode flag (R209). -/
def modFlag (col : Nat) : Nat := bit col 0

/-! ### Modulation -/

/-- The weight table `WT` (R210). -/
def weightTable (code : Nat) : Nat :=
  match code with
  | 0 => 0
  | 1 => 3
  | 2 => 5
  | _ => 8

/-- The code of word-local pixel (x, y) in 4bpp (R100(a), R210). -/
def code4 (m x y : Nat) : Nat := bits m (2 * (4 * y + x) + 1) (2 * (4 * y + x))

/-- The weight of word-local pixel (x, y) in 4bpp (R210 to R212): code 2 is the punch-through
sentinel 15 in a PVRTC2 word with MODFLAG = 1. -/
def weight4 (v : Variant) (w : PvrtcWord) (x y : Nat) : Nat :=
  if v = .pvrtc2 ∧ modFlag w.col = 1 ∧ code4 w.mod x y = 2 then weightTable 2 + 10
  else weightTable (code4 w.mod x y)

/-- The sub-mode of a 2bpp word (R213, R214). -/
inductive SubMode where
  /-- 0: MODFLAG = 0, one bit per pixel. -/
  | direct
  /-- 1: H&V. -/
  | hv
  /-- 2: H-only. -/
  | hOnly
  /-- 3: V-only. -/
  | vOnly
  deriving DecidableEq, Repr

/-- The sub-mode of a 2bpp word (R100(c), R213, R214). -/
def subMode (w : PvrtcWord) : SubMode :=
  if modFlag w.col = 0 then .direct
  else if bit w.mod 0 = 1 then (if bit w.mod 20 = 1 then .vOnly else .hOnly)
  else .hv

/-- The fix-ups of R214: when HV = 1 bit 20 takes bit 21, and always bit 0 takes bit 1. -/
def fixedMod (m : Nat) : Nat :=
  let m' := if bit m 0 = 1 then setBit m 20 (bit m 21) else m
  setBit m' 0 (bit m' 1)

/-- The number `j` of stored pixel (x, y) in row-major order (R100(c)): four to a row. -/
def storedIndex (x y : Nat) : Nat := 4 * y + x / 2

/-- The code of word-local pixel (x, y) in 2bpp. In direct mode bit 1 is code 3 and bit 0 is code 0
(R213). In the interpolated modes only the stored pixels, those with `x + y` even, carry a code
(R214); no weight reads this function at another place (R215). DEDUCED (log 18). -/
def code2 (w : PvrtcWord) (x y : Nat) : Nat :=
  match subMode w with
  | .direct => if bit w.mod (8 * y + x) = 1 then 3 else 0
  | _ => bits (fixedMod w.mod) (2 * storedIndex x y + 1) (2 * storedIndex x y)

end Sys2Proof.Machine
end

