-- ==== Sys2Proof/Machine/Bank.lean ====
section
/-! DEFINITION. The Pixel Format Decoder Bank (40_pixel_formats.md): the shared execution (R140, R149,
R150), one pixel function per format (R160 to R179) and the meanings of the twenty operations. -/

namespace Sys2Proof.Machine

/-- `need_src = W * H * S` (R150). -/
def bankNeedSrc (stride : Nat) (a : Args) : Nat := a.width.toNat * a.height.toNat * stride

/-- The raster of R149: output pixel (x, y) is the format's pixel function at
`SRC + (y*W + x)*S` (R140). -/
def bankRaster (stride : Nat) (pixel : Memory → Nat → Rgba) (s : State) : List Byte :=
  rasterBytes s.latch.width.toNat s.latch.height.toNat fun x y =>
    pixel s.mem (s.latch.srcBase.toNat + (y * s.latch.width.toNat + x) * stride)

/-- A command of the pixel class (R149, R301). -/
def runBank (stride : Nat) (pixel : Memory → Nat → Rgba) (s : State) :
    Host.Outcome State Fault Refusal :=
  runCommand (bankNeedSrc stride) (bankRaster stride pixel) s

/-! ### The pixel functions: channels by R102 and R103, defaults by R145 to R148 -/

/-- R160. -/
def pixelL8 (m : Memory) (p : Nat) : Rgba :=
  let l := n8 (m.readLE p 1) 8
  Rgba.ofNat l l l 255

/-- R161: alpha only, so R = G = B = 255 (R148). -/
def pixelA8 (m : Memory) (p : Nat) : Rgba :=
  Rgba.ofNat 255 255 255 (n8 (m.readLE p 1) 8)

/-- R162. -/
def pixelR8 (m : Memory) (p : Nat) : Rgba :=
  Rgba.ofNat (n8 (m.readLE p 1) 8) 0 0 255

/-- R163. -/
def pixelL8A8 (m : Memory) (p : Nat) : Rgba :=
  let l := n8 (m.readLE p 1) 8
  Rgba.ofNat l l l (n8 (m.readLE (p + 1) 1) 8)

/-- R164. -/
def pixelR8G8 (m : Memory) (p : Nat) : Rgba :=
  Rgba.ofNat (n8 (m.readLE p 1) 8) (n8 (m.readLE (p + 1) 1) 8) 0 255

/-- R165. -/
def pixelR5G6B5 (m : Memory) (p : Nat) : Rgba :=
  let u := m.readLE p 2
  Rgba.ofNat (n8 (bits u 15 11) 5) (n8 (bits u 10 5) 6) (n8 (bits u 4 0) 5) 255

/-- R166. -/
def pixelR5G5B5A1 (m : Memory) (p : Nat) : Rgba :=
  let u := m.readLE p 2
  Rgba.ofNat (n8 (bits u 15 11) 5) (n8 (bits u 10 6) 5) (n8 (bits u 5 1) 5) (n8 (bit u 0) 1)

/-- R167. -/
def pixelR4G4B4A4 (m : Memory) (p : Nat) : Rgba :=
  let u := m.readLE p 2
  Rgba.ofNat (n8 (bits u 15 12) 4) (n8 (bits u 11 8) 4) (n8 (bits u 7 4) 4) (n8 (bits u 3 0) 4)

/-- R168. -/
def pixelR16 (m : Memory) (p : Nat) : Rgba :=
  Rgba.ofNat (n8 (m.readLE p 2) 16) 0 0 255

/-- R169. -/
def pixelR8G8B8 (m : Memory) (p : Nat) : Rgba :=
  Rgba.ofNat (m.readLE p 1) (m.readLE (p + 1) 1) (m.readLE (p + 2) 1) 255

/-- R170. -/
def pixelR8G8B8A8 (m : Memory) (p : Nat) : Rgba :=
  Rgba.ofNat (m.readLE p 1) (m.readLE (p + 1) 1) (m.readLE (p + 2) 1) (m.readLE (p + 3) 1)

/-- R171. -/
def pixelB8G8R8A8 (m : Memory) (p : Nat) : Rgba :=
  Rgba.ofNat (m.readLE (p + 2) 1) (m.readLE (p + 1) 1) (m.readLE p 1) (m.readLE (p + 3) 1)

/-- R172. -/
def pixelR10G10B10A2 (m : Memory) (p : Nat) : Rgba :=
  let u := m.readLE p 4
  Rgba.ofNat (n8 (bits u 31 22) 10) (n8 (bits u 21 12) 10) (n8 (bits u 11 2) 10)
    (n8 (bits u 1 0) 2)

/-- R173. -/
def pixelR16G16 (m : Memory) (p : Nat) : Rgba :=
  Rgba.ofNat (n8 (m.readLE p 2) 16) (n8 (m.readLE (p + 2) 2) 16) 0 255

/-- R174. -/
def pixelR32 (m : Memory) (p : Nat) : Rgba :=
  Rgba.ofNat (n8 (m.readLE p 4) 32) 0 0 255

/-- R175. -/
def pixelR16G16B16 (m : Memory) (p : Nat) : Rgba :=
  Rgba.ofNat (n8 (m.readLE p 2) 16) (n8 (m.readLE (p + 2) 2) 16) (n8 (m.readLE (p + 4) 2) 16) 255

/-- R176. -/
def pixelR16G16B16A16 (m : Memory) (p : Nat) : Rgba :=
  Rgba.ofNat (n8 (m.readLE p 2) 16) (n8 (m.readLE (p + 2) 2) 16) (n8 (m.readLE (p + 4) 2) 16)
    (n8 (m.readLE (p + 6) 2) 16)

/-- R177. -/
def pixelR32G32 (m : Memory) (p : Nat) : Rgba :=
  Rgba.ofNat (n8 (m.readLE p 4) 32) (n8 (m.readLE (p + 4) 4) 32) 0 255

/-- R178. -/
def pixelR32G32B32 (m : Memory) (p : Nat) : Rgba :=
  Rgba.ofNat (n8 (m.readLE p 4) 32) (n8 (m.readLE (p + 4) 4) 32) (n8 (m.readLE (p + 8) 4) 32) 255

/-- R179. -/
def pixelR32G32B32A32 (m : Memory) (p : Nat) : Rgba :=
  Rgba.ofNat (n8 (m.readLE p 4) 32) (n8 (m.readLE (p + 4) 4) 32) (n8 (m.readLE (p + 8) 4) 32)
    (n8 (m.readLE (p + 12) 4) 32)

/-! ### The meanings: strides of R92 and R101 -/

/-- L8, OP 0x10 (R160). -/
def execL8 (s : State) : Host.Outcome State Fault Refusal := runBank 1 pixelL8 s

/-- A8, OP 0x11 (R161). -/
def execA8 (s : State) : Host.Outcome State Fault Refusal := runBank 1 pixelA8 s

/-- R8, OP 0x12 (R162). -/
def execR8 (s : State) : Host.Outcome State Fault Refusal := runBank 1 pixelR8 s

/-- L8A8, OP 0x13 (R163). -/
def execL8A8 (s : State) : Host.Outcome State Fault Refusal := runBank 2 pixelL8A8 s

/-- R8G8, OP 0x14 (R164). -/
def execR8G8 (s : State) : Host.Outcome State Fault Refusal := runBank 2 pixelR8G8 s

/-- R5G6B5, OP 0x15 (R165). -/
def execR5G6B5 (s : State) : Host.Outcome State Fault Refusal := runBank 2 pixelR5G6B5 s

/-- R5G5B5A1, OP 0x16 (R166). -/
def execR5G5B5A1 (s : State) : Host.Outcome State Fault Refusal := runBank 2 pixelR5G5B5A1 s

/-- R4G4B4A4, OP 0x17 (R167). -/
def execR4G4B4A4 (s : State) : Host.Outcome State Fault Refusal := runBank 2 pixelR4G4B4A4 s

/-- R16, OP 0x18 (R168). -/
def execR16 (s : State) : Host.Outcome State Fault Refusal := runBank 2 pixelR16 s

/-- R8G8B8, OP 0x19 (R169). -/
def execR8G8B8 (s : State) : Host.Outcome State Fault Refusal := runBank 3 pixelR8G8B8 s

/-- R8G8B8A8, OP 0x1A (R170). -/
def execR8G8B8A8 (s : State) : Host.Outcome State Fault Refusal := runBank 4 pixelR8G8B8A8 s

/-- B8G8R8A8, OP 0x1B (R171). -/
def execB8G8R8A8 (s : State) : Host.Outcome State Fault Refusal := runBank 4 pixelB8G8R8A8 s

/-- R10G10B10A2, OP 0x1C (R172). -/
def execR10G10B10A2 (s : State) : Host.Outcome State Fault Refusal := runBank 4 pixelR10G10B10A2 s

/-- R16G16, OP 0x1D (R173). -/
def execR16G16 (s : State) : Host.Outcome State Fault Refusal := runBank 4 pixelR16G16 s

/-- R32, OP 0x1E (R174). -/
def execR32 (s : State) : Host.Outcome State Fault Refusal := runBank 4 pixelR32 s

/-- R16G16B16, OP 0x1F (R175). -/
def execR16G16B16 (s : State) : Host.Outcome State Fault Refusal := runBank 6 pixelR16G16B16 s

/-- R16G16B16A16, OP 0x20 (R176). -/
def execR16G16B16A16 (s : State) : Host.Outcome State Fault Refusal := runBank 8 pixelR16G16B16A16 s

/-- R32G32, OP 0x21 (R177). -/
def execR32G32 (s : State) : Host.Outcome State Fault Refusal := runBank 8 pixelR32G32 s

/-- R32G32B32, OP 0x22 (R178). -/
def execR32G32B32 (s : State) : Host.Outcome State Fault Refusal := runBank 12 pixelR32G32B32 s

/-- R32G32B32A32, OP 0x23 (R179). -/
def execR32G32B32A32 (s : State) : Host.Outcome State Fault Refusal := runBank 16 pixelR32G32B32A32 s

end Sys2Proof.Machine
end

