-- ==== Sys2Proof/Machine/Pvrtc.lean ====
section
/-! DEFINITION. The PVRTC and PVRTC2 block decoder (41_pvrtc.md R200 to R243): geometry and word
addressing, tiles, the weight of a pixel, reconstruction, and the meanings of the four operations. -/

namespace Sys2Proof.Machine

/-! ### Geometry and word addressing -/

/-- `Ww` (R8, R200). -/
def wordWidth : Bpp → Nat
  | .two => 8
  | .four => 4

/-- `FW`, the floor width (R8, R200). -/
def floorWidth : Bpp → Nat
  | .two => 16
  | .four => 8

/-- The grid of words of one command (R201). -/
structure Grid where
  variant : Variant
  bpp : Bpp
  /-- `NX`. -/
  nx : Nat
  /-- `NY`. -/
  ny : Nat
  deriving DecidableEq, Repr

/-- The grid of a command: the floor applies to each axis on its own (R201). -/
def gridOf (v : Variant) (bpp : Bpp) (a : Args) : Grid :=
  { variant := v, bpp := bpp,
    nx := max a.width.toNat (floorWidth bpp) / wordWidth bpp,
    ny := max a.height.toNat 8 / 4 }

/-- The loop of R203, from `t`, `s`, `d` and `sc` on; it answers the final `t` and `sc`. `fuel` bounds
the rounds: `s` doubles in each, so `minD` rounds suffice. -/
def twiddleLoop (minD x y : Nat) : (fuel t s d sc : Nat) → Nat × Nat
  | 0, t, _, _, sc => (t, sc)
  | fuel + 1, t, s, d, sc =>
    if s < minD then
      let t := if x &&& s ≠ 0 then t ||| d else t
      let t := if y &&& s ≠ 0 then t ||| (d <<< 1) else t
      twiddleLoop minD x y fuel t (s <<< 1) (d <<< 2) (sc + 1)
    else (t, sc)

/-- The Morton index of word (x, y) (R203). -/
def twiddle (nx ny x y : Nat) : Nat :=
  let minD := if nx < ny then nx else ny
  let major := if nx < ny then y else x
  let ts := twiddleLoop minD x y minD 0 1 1 0
  ts.1 ||| ((major >>> ts.2) <<< (2 * ts.2))

/-- The byte offset of word (x, y) from SRC (R202). -/
def wordOffset (g : Grid) (x y : Nat) : Nat :=
  match g.variant with
  | .pvrtc1 => 8 * twiddle g.nx g.ny x y
  | .pvrtc2 => 8 * (y * g.nx + x)

/-- The largest twiddled index of the grid, for R228. -/
def maxTwiddle (nx ny : Nat) : Nat :=
  (List.range ny).foldl (fun best y =>
    (List.range nx).foldl (fun best x => max best (twiddle nx ny x y)) best) 0

/-- `need_src` of a PVRTC command (R228). -/
def pvrtcNeedSrc (v : Variant) (bpp : Bpp) (a : Args) : Nat :=
  if a.width.toNat = 0 ∨ a.height.toNat = 0 then 0
  else
    let g := gridOf v bpp a
    match v with
    | .pvrtc1 => 8 * (1 + maxTwiddle g.nx g.ny)
    | .pvrtc2 => 8 * g.nx * g.ny

/-- `ReadWord(x, y)` (R97, R204). -/
def readWord (m : Memory) (src : Nat) (g : Grid) (x y : Nat) : PvrtcWord :=
  { mod := m.readLE (src + wordOffset g x y) 4,
    col := m.readLE (src + wordOffset g x y + 4) 4 }

/-- `wrap(i, n)`, the toroidal index (R205). -/
def wrap (i : Int) (n : Nat) : Nat := ((i + n) % n).toNat

/-- The four words of a tile (R205). -/
structure Tile where
  p : PvrtcWord
  q : PvrtcWord
  r : PvrtcWord
  s : PvrtcWord
  deriving DecidableEq, Repr

/-- The words of tile (a, b), `-1 ≤ a ≤ NX − 2` and `-1 ≤ b ≤ NY − 2` (R205). -/
def tileAt (m : Memory) (src : Nat) (g : Grid) (a b : Int) : Tile :=
  { p := readWord m src g (wrap a g.nx) (wrap b g.ny),
    q := readWord m src g (wrap (a + 1) g.nx) (wrap b g.ny),
    r := readWord m src g (wrap a g.nx) (wrap (b + 1) g.ny),
    s := readWord m src g (wrap (a + 1) g.nx) (wrap (b + 1) g.ny) }

/-! ### The weight of a pixel -/

/-- The word whose pixel grid holds combined-grid position (x, y) (41_pvrtc.md section 3). -/
def Tile.wordOf (t : Tile) (bpp : Bpp) (x y : Nat) : PvrtcWord :=
  if y < 4 then (if x < wordWidth bpp then t.p else t.q)
  else (if x < wordWidth bpp then t.r else t.s)

/-- `WT[G[x][y].code]` of a 2bpp tile. -/
def tableWeight2 (t : Tile) (x y : Nat) : Nat :=
  weightTable (code2 (t.wordOf .two x y) (x % 8) (y % 4))

/-- `Weight(G, x, y)` (R215). -/
def weightAt (v : Variant) (bpp : Bpp) (t : Tile) (x y : Nat) : Nat :=
  match bpp with
  | .four => weight4 v (t.wordOf .four x y) (x % 4) (y % 4)
  | .two =>
    if (x + y) % 2 = 0 then tableWeight2 t x y
    else
      match subMode (t.wordOf .two x y) with
      | .direct => tableWeight2 t x y
      | .hv =>
        (tableWeight2 t x (y - 1) + tableWeight2 t x (y + 1)
          + tableWeight2 t (x - 1) y + tableWeight2 t (x + 1) y + 2) / 4
      | .hOnly => (tableWeight2 t (x - 1) y + tableWeight2 t (x + 1) y + 1) / 2
      | .vOnly => (tableWeight2 t x (y - 1) + tableWeight2 t x (y + 1) + 1) / 2

/-- The weight of tile pixel (c, r) (R216). -/
def tileWeight (v : Variant) (bpp : Bpp) (t : Tile) (c r : Nat) : Nat :=
  weightAt v bpp t (c + wordWidth bpp / 2) (r + 2)

/-! ### Reconstruction -/

/-- The bilinear accumulator of one channel (R218). -/
def bilinear (ww c r p q r' s : Nat) : Nat :=
  (4 - r) * ((ww - c) * p + c * q) + r * ((ww - c) * r' + c * s)

/-- An accumulated colour channel scaled to 8 bits (R219). -/
def scaleRgb : Bpp → Nat → Nat
  | .four, acc => (acc >>> 6) + (acc >>> 1)
  | .two, acc => (acc >>> 7) + (acc >>> 2)

/-- An accumulated alpha channel scaled to 8 bits (R219). -/
def scaleAlpha : Bpp → Nat → Nat
  | .four, acc => (acc >>> 4) + acc
  | .two, acc => (acc >>> 5) + (acc >>> 1)

/-- An endpoint of the four words interpolated at tile pixel (c, r) (R218, R219). -/
def interpolate (bpp : Bpp) (c r : Nat) (p q r' s : Colour) : Colour :=
  { r := scaleRgb bpp (bilinear (wordWidth bpp) c r p.r q.r r'.r s.r),
    g := scaleRgb bpp (bilinear (wordWidth bpp) c r p.g q.g r'.g s.g),
    b := scaleRgb bpp (bilinear (wordWidth bpp) c r p.b q.b r'.b s.b),
    a := scaleAlpha bpp (bilinear (wordWidth bpp) c r p.a q.a r'.a s.a) }

/-- The owner of the quadrant of tile pixel (c, r) (R220, R224). -/
def Tile.owner (t : Tile) (bpp : Bpp) (c r : Nat) : PvrtcWord :=
  if r < 2 then (if c < wordWidth bpp / 2 then t.p else t.q)
  else (if c < wordWidth bpp / 2 then t.r else t.s)

/-- A hard word's own endpoint, flat (R220). -/
def flatColour (mode : HardAlphaMode) (e : Colour) : Colour :=
  { r := (e.r <<< 3) ||| (e.r >>> 2),
    g := (e.g <<< 3) ||| (e.g >>> 2),
    b := (e.b <<< 3) ||| (e.b >>> 2),
    a := match mode with
      | .zero => 0
      | .endpoint => 17 * e.a }

/-- The 8-bit endpoint of tile pixel (c, r), for the endpoint that `colour` extracts (R218 to R220). -/
def endpointAt (v : Variant) (bpp : Bpp) (mode : HardAlphaMode) (t : Tile) (c r : Nat)
    (colour : Nat → Colour) : Colour :=
  let k := t.owner bpp c r
  if isHard v k.col then flatColour mode (colour k.col)
  else interpolate bpp c r (colour t.p.col) (colour t.q.col) (colour t.r.col) (colour t.s.col)

/-- One channel blended by a normal weight and clamped (R222, R223). -/
def blend (w a b : Nat) : Nat := min 255 ((a * (8 - w) + b * w) / 8)

/-- The output of tile pixel (c, r) (R221 to R223). -/
def tilePixel (v : Variant) (bpp : Bpp) (mode : HardAlphaMode) (t : Tile) (c r : Nat) : Rgba :=
  let w := tileWeight v bpp t c r
  if 10 < w then Rgba.clear
  else
    let a := endpointAt v bpp mode t c r (colourA v)
    let b := endpointAt v bpp mode t c r (colourB v)
    Rgba.ofNat (blend w a.r b.r) (blend w a.g b.g) (blend w a.b b.b) (blend w a.a b.a)

/-! ### The scratch raster

R229 writes every tile pixel to its scratch position. The model reads the scratch raster the other
way round: at each scratch position it takes the one tile pixel that R224 maps there. `scratchCoord`
is R224's map on one axis and `tileCoord` its inverse. DESIGN CHOICE (log 12). -/

/-- R224 on one axis: where coordinate `c` of tile `a` lands, for words of `size` pixels and `n` words
on the axis. The low half belongs to the word at `wrap(a)`, the high half to the one at `wrap(a + 1)`. -/
def scratchCoord (size n : Nat) (a : Int) (c : Nat) : Nat :=
  if c < size / 2 then wrap a n * size + c + size / 2
  else wrap (a + 1) n * size + c - size / 2

/-- The tile and the tile coordinate that land at scratch coordinate `x` (the inverse of R224). -/
def tileCoord (size n : Nat) (x : Nat) : Int × Nat :=
  if x % size < size / 2 then ((x / size : Nat) - 1, x % size + size / 2)
  else (if x / size + 1 = n then -1 else (x / size : Nat), x % size - size / 2)

/-- Scratch pixel (x, y) after every tile is done: a pixel no tile covers keeps the (0, 0, 0, 0) of
R201 (R225). -/
def scratchPixel (m : Memory) (src : Nat) (g : Grid) (mode : HardAlphaMode) (x y : Nat) : Rgba :=
  if x < g.nx * wordWidth g.bpp ∧ y < g.ny * 4 then
    let i := tileCoord (wordWidth g.bpp) g.nx x
    let j := tileCoord 4 g.ny y
    tilePixel g.variant g.bpp mode (tileAt m src g i.1 j.1) i.2 j.2
  else Rgba.clear

/-- The cropped output (R226): the top-left W × H pixels of the scratch raster. -/
def pvrtcRaster (v : Variant) (bpp : Bpp) (s : State) : List Byte :=
  rasterBytes s.latch.width.toNat s.latch.height.toNat
    (scratchPixel s.mem s.latch.srcBase.toNat (gridOf v bpp s.latch) s.params.hardAlpha)

/-- `PvrtcExecute(V, M)` (R229), behind the checks of R301. -/
def runPvrtc (v : Variant) (bpp : Bpp) (s : State) : Host.Outcome State Fault Refusal :=
  runCommand (pvrtcNeedSrc v bpp) (pvrtcRaster v bpp) s

/-! ### The meanings -/

/-- PVRTC1_2BPP, OP 0x00 (R240). -/
def execPvrtc1Bpp2 (s : State) : Host.Outcome State Fault Refusal := runPvrtc .pvrtc1 .two s

/-- PVRTC1_4BPP, OP 0x01 (R241). -/
def execPvrtc1Bpp4 (s : State) : Host.Outcome State Fault Refusal := runPvrtc .pvrtc1 .four s

/-- PVRTC2_2BPP, OP 0x02 (R242). -/
def execPvrtc2Bpp2 (s : State) : Host.Outcome State Fault Refusal := runPvrtc .pvrtc2 .two s

/-- PVRTC2_4BPP, OP 0x03 (R243). -/
def execPvrtc2Bpp4 (s : State) : Host.Outcome State Fault Refusal := runPvrtc .pvrtc2 .four s

end Sys2Proof.Machine
end

