-- ==== Sys2Proof/Machine/Dispatch.lean ====
section
/-! DEFINITION. Dispatch: one arm per operation of the opcode map (30_encoding.md R92). -/

namespace Sys2Proof.Machine

/-- The completion of the latched command as operation `i` (60_exceptions.md R301). -/
def exec (i : Instr) (s : State) : Host.Outcome State Fault Refusal :=
  match i with
  | .pvrtc1_2bpp => Sys2Proof.Machine.execPvrtc1Bpp2 s
  | .pvrtc1_4bpp => Sys2Proof.Machine.execPvrtc1Bpp4 s
  | .pvrtc2_2bpp => Sys2Proof.Machine.execPvrtc2Bpp2 s
  | .pvrtc2_4bpp => Sys2Proof.Machine.execPvrtc2Bpp4 s
  | .l8 => Sys2Proof.Machine.execL8 s
  | .a8 => Sys2Proof.Machine.execA8 s
  | .r8 => Sys2Proof.Machine.execR8 s
  | .l8a8 => Sys2Proof.Machine.execL8A8 s
  | .r8g8 => Sys2Proof.Machine.execR8G8 s
  | .r5g6b5 => Sys2Proof.Machine.execR5G6B5 s
  | .r5g5b5a1 => Sys2Proof.Machine.execR5G5B5A1 s
  | .r4g4b4a4 => Sys2Proof.Machine.execR4G4B4A4 s
  | .r16 => Sys2Proof.Machine.execR16 s
  | .r8g8b8 => Sys2Proof.Machine.execR8G8B8 s
  | .r8g8b8a8 => Sys2Proof.Machine.execR8G8B8A8 s
  | .b8g8r8a8 => Sys2Proof.Machine.execB8G8R8A8 s
  | .r10g10b10a2 => Sys2Proof.Machine.execR10G10B10A2 s
  | .r16g16 => Sys2Proof.Machine.execR16G16 s
  | .r32 => Sys2Proof.Machine.execR32 s
  | .r16g16b16 => Sys2Proof.Machine.execR16G16B16 s
  | .r16g16b16a16 => Sys2Proof.Machine.execR16G16B16A16 s
  | .r32g32 => Sys2Proof.Machine.execR32G32 s
  | .r32g32b32 => Sys2Proof.Machine.execR32G32B32 s
  | .r32g32b32a32 => Sys2Proof.Machine.execR32G32B32A32 s

end Sys2Proof.Machine
end

