-- ==== Sys2Proof/Machine/HostPort.lean ====
section
/-! DEFINITION. The host's side: the verdict and the footprint of a command (60_exceptions.md R301,
R305), the host's accesses to registers and memory (10_state.md R35, 70_reset_and_hazards.md R344),
the reset input (R340, R341) and the host-program forms of 30_encoding.md R105 and R106. -/

namespace Sys2Proof.Machine

/-! ### Verdict and footprint of a command -/

/-- `need_src` of an operation (R150 with the strides of R92, and R228). -/
def needSrc (i : Instr) (a : Args) : Nat :=
  match i with
  | .pvrtc1_2bpp => pvrtcNeedSrc .pvrtc1 .two a
  | .pvrtc1_4bpp => pvrtcNeedSrc .pvrtc1 .four a
  | .pvrtc2_2bpp => pvrtcNeedSrc .pvrtc2 .two a
  | .pvrtc2_4bpp => pvrtcNeedSrc .pvrtc2 .four a
  | .l8 => bankNeedSrc 1 a
  | .a8 => bankNeedSrc 1 a
  | .r8 => bankNeedSrc 1 a
  | .l8a8 => bankNeedSrc 2 a
  | .r8g8 => bankNeedSrc 2 a
  | .r5g6b5 => bankNeedSrc 2 a
  | .r5g5b5a1 => bankNeedSrc 2 a
  | .r4g4b4a4 => bankNeedSrc 2 a
  | .r16 => bankNeedSrc 2 a
  | .r8g8b8 => bankNeedSrc 3 a
  | .r8g8b8a8 => bankNeedSrc 4 a
  | .b8g8r8a8 => bankNeedSrc 4 a
  | .r10g10b10a2 => bankNeedSrc 4 a
  | .r16g16 => bankNeedSrc 4 a
  | .r32 => bankNeedSrc 4 a
  | .r16g16b16 => bankNeedSrc 6 a
  | .r16g16b16a16 => bankNeedSrc 8 a
  | .r32g32 => bankNeedSrc 8 a
  | .r32g32b32 => bankNeedSrc 12 a
  | .r32g32b32a32 => bankNeedSrc 16 a

/-- What all the checks of R301 decide of a command: its operation, or the code it ends with. -/
def verdict (p : Params) (a : Args) : Except ErrCode Instr :=
  match decode a.cmd with
  | .error e => .error (errOfDecode e)
  | .ok i =>
    match regionError p.memSize (needSrc i) a with
    | some code => .error code
    | none => .ok i

/-- How many bytes a command reads from SRC_BASE on; none for a command that will end in ERROR
(R344). -/
def srcFootprint (p : Params) (a : Args) : Nat :=
  match verdict p a with
  | .ok i => needSrc i a
  | .error _ => 0

/-- How many bytes a command writes from DST_BASE on; none for a command that will end in ERROR
(R344). -/
def dstFootprint (p : Params) (a : Args) : Nat :=
  match verdict p a with
  | .ok _ => needDst a
  | .error _ => 0

/-- The commands whose regions the host must leave alone (R71(c), R344(b), (c)): the running one, and
every one started since the host last read STATUS with STATE ≠ BUSY. DEDUCED (log 7): a command's window
goes on after BUSY. -/
def State.guarded (s : State) : List Args :=
  if s.status.state = .busy then s.latch :: s.unread else s.unread

/-- A host access of `count` bytes at `addr` touches the source or destination bytes of a guarded
command (R344(b), (c)). -/
def State.memHazard (s : State) (addr count : Nat) : Bool :=
  s.guarded.any fun a =>
    rangesMeet addr count a.srcBase.toNat (srcFootprint s.params a) ||
      rangesMeet addr count a.dstBase.toNat (dstFootprint s.params a)

/-- The host must not write a register: while BUSY (R35(b)); and under `RegWriteDuty.untilStatusRead`
also until it has read STATUS with STATE ≠ BUSY (R344(a); log 7). -/
def State.registersHeld (s : State) : Bool :=
  decide (s.status.state = .busy) ||
    (decide (s.params.regWriteDuty = .untilStatusRead) && !s.unread.isEmpty)

/-- Every byte of a host access lies in the data memory (R60). DESIGN CHOICE (log 8): an access outside
it stops. -/
def insideMemory (p : Params) (addr count : Nat) : Bool :=
  decide (count = 0) || decide (addr + count ≤ p.memSize)

/-! ### The host's steps -/

/-- A host read of the register at an offset: the value joins the trace, and a read of STATUS with
STATE ≠ BUSY ends the window of R344. The machine itself is unchanged (R33, R69). -/
def State.observeReg (s : State) (addr offset : Nat) : State :=
  { s with
    trace := .regValue addr (readOffset s offset) :: s.trace
    unread :=
      if offset = RegName.status.offset ∧ s.status.state ≠ .busy then [] else s.unread }

/-- The reset input (R340). A reset while BUSY leaves free bytes in the abandoned command's
destination region and every other byte unchanged (R341). The latch takes a named value (log 4).
DEDUCED (log 10): the region of a command that would end in ERROR is empty. -/
def State.resetEvent (s : State) : State :=
  let lost := if s.status.state = .busy then dstFootprint s.params s.latch else 0
  { s with
    regs := .zero
    status := { state := .idle, err := .none }
    latch := .zero
    mem :=
      if lost = 0 then s.mem
      else s.mem.write s.latch.dstBase.toNat
        ((List.range lost).map fun k => Config.freeByte (s.freeCount + k))
    unread := []
    freeCount := s.freeCount + lost }

/-- One host step on a state from whose queue `op` has been taken. DESIGN CHOICE: the order of the tests
within a step (logs 8 and 9), the kind of a hazard in the window after BUSY (log 11), and that an access of several bytes is one step (log 15). DEDUCED (log 14): a POLL repeats in
IDLE. -/
def hostStep (op : HostOp) (s : State) : Host.Outcome State Fault Refusal :=
  match op with
  | .regWrite addr bits value =>
    match accessOffset s.params addr bits with
    | none => .fault (.hostHazard .regAccess)
    | some offset =>
      if s.registersHeld then .fault (.hostHazard .regWriteBusy)
      else .next (writeOffset s offset value)
  | .regRead addr bits =>
    match accessOffset s.params addr bits with
    | none => .fault (.hostHazard .regAccess)
    | some offset => .next (s.observeReg addr offset)
  | .memWrite addr bytes =>
    if insideMemory s.params addr bytes.length = false then .fault .hostOutsideMemory
    else if s.memHazard addr bytes.length then .fault (.hostHazard .memBusy)
    else .next { s with mem := s.mem.write addr bytes }
  | .memRead addr count =>
    if insideMemory s.params addr count = false then .fault .hostOutsideMemory
    else if s.memHazard addr count then .fault (.hostHazard .memBusy)
    else .next { s with trace := .memBytes addr (s.mem.readBytes addr count) :: s.trace }
  | .poll =>
    let s' := s.observeReg (s.params.regBase + RegName.status.offset) RegName.status.offset
    if s.status.state = .done ∨ s.status.state = .error then .next s'
    else .next { s' with hostQueue := .poll :: s'.hostQueue }
  | .reset => .next s.resetEvent

/-! ### Host-program forms -/

/-- `WR reg, v`: the bus pair (REG_BASE + offset, v) (R105). -/
def hostWR (p : Params) (r : RegName) (v : Word) : HostOp :=
  .regWrite (p.regBase + r.offset) 32 v

/-- `RD reg` (R105). -/
def hostRD (p : Params) (r : RegName) : HostOp := .regRead (p.regBase + r.offset) 32

/-- `DECODE op, w, h, src, slen, dst, dlen`, whose arguments are the seven words of `a` (R106). -/
def hostDecode (p : Params) (a : Args) : List HostOp :=
  [hostWR p .cmd a.cmd, hostWR p .width a.width, hostWR p .height a.height,
    hostWR p .srcBase a.srcBase, hostWR p .srcLen a.srcLen, hostWR p .dstBase a.dstBase,
    hostWR p .dstLen a.dstLen, hostWR p .ctrl 1, .poll]

end Sys2Proof.Machine
end

