-- ==== Sys2Proof/Machine/Engine.lean ====
section
/-! DEFINITION. The engine's step (10_state.md R37) and the turns of the two agents (00_scope.md R15). -/

namespace Sys2Proof.Machine

/-- The completion step of R37: Execute (R301) on the latched command. A word that names no operation
ends in ERROR (R93, R94, R302). -/
def completeCommand (s : State) : Host.Outcome State Fault Refusal :=
  match decode s.latch.cmd with
  | .error e => .next (s.enterError (errOfDecode e))
  | .ok i => exec i s

/-- The engine's turn: the completion step is enabled exactly while BUSY (R345). -/
def engineTurn (s : State) : Host.Outcome State Fault Refusal :=
  if s.status.state = .busy then completeCommand s else .next s

/-- The host's turn: its next pending step; a host with nothing to do leaves the state as it is. -/
def hostTurn (s : State) : Host.Outcome State Fault Refusal :=
  match s.hostQueue with
  | [] => .next s
  | op :: rest => hostStep op { s with hostQueue := rest }

/-- Which agent moves: the environment's choice while it makes one (U14, R346), then the engine while
a command runs, so that a completion is always taken in the end (R345). DESIGN CHOICE (logs 2 and 16). -/
def nextAgent (s : State) : Agent :=
  match s.schedule with
  | a :: _ => a
  | [] => if s.status.state = .busy then .engine else .host

/-- The turn of one agent. -/
def turn (a : Agent) (s : State) : Host.Outcome State Fault Refusal :=
  match a with
  | .host => hostTurn s
  | .engine => engineTurn s

/-- The state in which the host has written the command word `w` and started it: the arguments are
those its registers hold (R25, R32). -/
def State.startWord (s : State) (w : Word) : State :=
  ({ s with regs := { s.regs with cmd := w } }).start

end Sys2Proof.Machine
end

