-- ==== Sys2Proof/Machine/Step.lean ====
section
/-! DEFINITION. One step of the machine: the turn of one agent. -/

namespace Sys2Proof.Machine

/-- One step: the next agent moves, and the environment's choice of it is used up. -/
def step (s : State) : Host.Outcome State Fault Refusal :=
  turn (nextAgent s) { s with schedule := s.schedule.tail }

/-- `s` with the command word of the table's numbering where the engine takes its next command: PVRDEC
has no program counter and fetches nothing (R22, R74); a command is the word in CMD when START latches
it (R36). So the word goes to CMD, START is taken, and the engine moves next (log 3). -/
def State.withFetchWord (s : State) (nbits w : Nat) : State :=
  let started := s.startWord (BitVec.ofNat 32 (w % 2 ^ nbits))
  { started with schedule := .engine :: started.schedule }

end Sys2Proof.Machine
end

