-- ==== Sys2Proof/Safety.lean ====
section
/-! DEFINITION. The terms claims are stated in: when a command is accepted (60_exceptions.md R301), what
a DONE completion leaves (20_memory.md R67, 10_state.md R37), and the invariant of the machine. -/

namespace Sys2Proof.Machine

/-- The region checks of R301 all pass for the latched command, when its operation needs `need` source
bytes: both regions lie below MEM_SIZE, neither buffer is short, and the bytes read and the bytes
written do not meet. -/
def State.Accepts (s : State) (need : Nat) : Prop :=
  s.latch.srcBase.toNat + s.latch.srcLen.toNat ≤ s.params.memSize ∧
  s.latch.dstBase.toNat + s.latch.dstLen.toNat ≤ s.params.memSize ∧
  s.latch.width.toNat * s.latch.height.toNat * 4 ≤ s.latch.dstLen.toNat ∧
  need ≤ s.latch.srcLen.toNat ∧
  (need = 0 ∨ s.latch.width.toNat * s.latch.height.toNat * 4 = 0 ∨
    s.latch.srcBase.toNat + need ≤ s.latch.dstBase.toNat ∨
    s.latch.dstBase.toNat + s.latch.width.toNat * s.latch.height.toNat * 4 ≤ s.latch.srcBase.toNat)

/-- Memory `m` holds the `w × h` raster of the pixel function `px` at `dst`: the four bytes of pixel
(x, y) are R, G, B, A from `dst + (y*w + x)*4` on (R66, R140). -/
def HoldsRaster (m : Memory) (dst w h : Nat) (px : Nat → Nat → Rgba) : Prop :=
  ∀ x y, x < w → y < h →
    m.read (dst + (y * w + x) * 4) = (px x y).r ∧
    m.read (dst + (y * w + x) * 4 + 1) = (px x y).g ∧
    m.read (dst + (y * w + x) * 4 + 2) = (px x y).b ∧
    m.read (dst + (y * w + x) * 4 + 3) = (px x y).a

/-- Every byte outside the `count` bytes from `base` on reads in `m'` as in `m`. -/
def SameOutside (m m' : Memory) (base count : Nat) : Prop :=
  ∀ addr, addr < base ∨ base + count ≤ addr → m'.read addr = m.read addr

/-- The DONE completion of instruction `i` in state `s` with the raster of `px` (R37, R67): exec answers
a next state; STATUS is DONE with no error; memory holds the raster at the latched DST_BASE and is
unchanged outside it; and nothing else of the state changes: not the registers, not the latch, not the
parameters, not the host's side. -/
def Completes (i : Instr) (s : State) (px : Nat → Nat → Rgba) : Prop :=
  ∃ m : Memory,
    exec i s = .next { s with status := { state := .done, err := .none }, mem := m } ∧
    HoldsRaster m s.latch.dstBase.toNat s.latch.width.toNat s.latch.height.toNat px ∧
    SameOutside s.mem m s.latch.dstBase.toNat (s.latch.width.toNat * s.latch.height.toNat * 4)

/-- A pixel-class operation (R101, R149): its command word is `op`; and every accepted command completes
with the raster whose pixel (x, y) is `px` of the `stride` bytes at `SRC + (y*W + x)*stride`. -/
def FormatDecodes (op : Nat) (i : Instr) (stride : Nat) (px : (Nat → Byte) → Rgba) : Prop :=
  encode i = BitVec.ofNat 32 op ∧
  ∀ s : State, s.Accepts (s.latch.width.toNat * s.latch.height.toNat * stride) →
    Completes i s fun x y =>
      px fun k => s.mem.read
        (s.latch.srcBase.toNat + (y * s.latch.width.toNat + x) * stride + k)

/-- R201, R205, R224 to R226 for a PVRTC operation: an accepted command ends in DONE with nothing but
STATUS and the destination changed; the tile pixel (c, r) of every tile (a, b) stands in the output at
R224's place for its quadrant, where that place is inside the crop; and every output pixel no tile
covers is (0, 0, 0, 0). -/
def PvrtcDecodes (op : Nat) (i : Instr) (v : Variant) (bpp : Bpp) (ww fw : Nat) :
    Prop :=
  encode i = BitVec.ofNat 32 op ∧
  ∀ s : State, s.Accepts (pvrtcNeedSrc v bpp s.latch) →
    let w := s.latch.width.toNat
    let h := s.latch.height.toNat
    let src := s.latch.srcBase.toNat
    let dst := s.latch.dstBase.toNat
    let nx := max w fw / ww
    let ny := max h 8 / 4
    ∃ m : Memory,
      exec i s = .next { s with status := { state := .done, err := .none }, mem := m } ∧
      SameOutside s.mem m dst (w * h * 4) ∧
      (∀ (a b : Int) (c r x y : Nat), -1 ≤ a → a ≤ (nx : Int) - 2 → -1 ≤ b → b ≤ (ny : Int) - 2 →
        c < ww → r < 4 →
        x = (if c < ww / 2 then wrap a nx * ww + c + ww / 2 else wrap (a + 1) nx * ww + c - ww / 2) →
        y = (if r < 2 then wrap b ny * 4 + r + 2 else wrap (b + 1) ny * 4 + r - 2) →
        x < w → y < h →
        m.readBytes (dst + (y * w + x) * 4) 4 =
          (tilePixel v bpp s.params.hardAlpha
            (tileAt s.mem src { variant := v, bpp := bpp, nx := nx, ny := ny } a b) c r).bytes) ∧
      (∀ x y : Nat, x < w → y < h → nx * ww ≤ x ∨ ny * 4 ≤ y →
        m.readBytes (dst + (y * w + x) * 4) 4 = [0, 0, 0, 0])

/-- The invariant of the machine: memory is canonical and lies below MEM_SIZE (R60); ERR is NONE exactly
when STATE is not ERROR (R33); the latch equals the registers for as long as the host must not write them
(R36); the latest unread command is the latched one, there is one while BUSY and none in IDLE (R33, R342,
R344), and under `RegWriteDuty.untilStatusRead` there is no second one. -/
structure State.Inv (s : State) : Prop where
  memWf : s.mem.wf = true
  memBelow : s.mem.below s.params.memSize = true
  errIff : s.status.err = .none ↔ s.status.state ≠ .error
  latchEq : s.registersHeld = true → s.latch = s.regs
  unreadHead : s.unread ≠ [] → s.unread.head? = some s.latch
  running : s.status.state = .busy → s.unread ≠ []
  idleNone : s.status.state = .idle → s.unread = []
  single : s.params.regWriteDuty = .untilStatusRead → s.unread.length ≤ 1

end Sys2Proof.Machine
end

