-- ==== Sys2Proof/Certificates/Slice0/Obligations.lean ====
section
/-! DEFINITION. The statements for the provers. Each docstring names the rule of spec/ it formalises;
the terms they share stand in Sys2Proof/Safety.lean. -/

open Sys2Proof Sys2Proof.Machine

/-! ### The command word -/

/-- R92 to R94 on words written out from the opcode map, one or more of each class, and on the words on
either side of its gaps. -/
def Obligations.SpecWordsDecode : Prop :=
  decode 0x00000000#32 = .ok .pvrtc1_2bpp ∧
  decode 0x00000001#32 = .ok .pvrtc1_4bpp ∧
  decode 0x00000002#32 = .ok .pvrtc2_2bpp ∧
  decode 0x00000003#32 = .ok .pvrtc2_4bpp ∧
  decode 0x00000004#32 = .error .unsupported ∧
  decode 0x0000000F#32 = .error .unsupported ∧
  decode 0x00000010#32 = .ok .l8 ∧
  decode 0x00000016#32 = .ok .r5g5b5a1 ∧
  decode 0x0000001C#32 = .ok .r10g10b10a2 ∧
  decode 0x0000001F#32 = .ok .r16g16b16 ∧
  decode 0x00000020#32 = .ok .r16g16b16a16 ∧
  decode 0x00000023#32 = .ok .r32g32b32a32 ∧
  decode 0x00000024#32 = .error .unsupported ∧
  decode 0x000000FF#32 = .error .unsupported ∧
  decode 0x00000110#32 = .error .illegalCmd ∧
  decode 0x80000010#32 = .error .illegalCmd

/-- R90, R92: decoding an encoded instruction gives it back, for every (well-formed) instruction. -/
def Obligations.DecodeOfEncodeIsTheInstruction : Prop :=
  ∀ i : Instr, i.wf = true → decode (encode i) = .ok i

/-- R92, R104: a word decodes to an operation exactly when its reserved field is 0 and its OP field is
that operation's; so every word of the 2^32 has exactly one outcome, and no two operations share a
word. -/
def Obligations.WordsDecodeByTheOpcodeMap : Prop :=
  ∀ (w : Word) (i : Instr),
    decode w = .ok i ↔ (w.extractLsb' 8 24 = 0#24 ∧ w.extractLsb' 0 8 = i.op)

/-- R91: in the PVRTC class bit 1 of OP is the variant V and bit 0 the bpp mode M, and they alone choose
the datapath. -/
def Obligations.OpBitsChooseVariantAndMode : Prop :=
  ∀ (i : Instr) (s : State), i.op.extractLsb' 4 4 = 0#4 →
    i.op.extractLsb' 2 2 = 0#2 ∧
    exec i s = runPvrtc (if i.op[1] then .pvrtc2 else .pvrtc1) (if i.op[0] then .four else .two) s

/-! ### The engine's step -/

/-- R37, R301: while a command runs and the engine is the next to move, a step is the completion of the
operation its latched word decodes to. What a step adds is that the environment's choice of the agent is
used up. -/
def Obligations.StepRunsTheDecodedCommand : Prop :=
  ∀ (s : State) (i : Instr), s.status.state = .busy →
    (s.schedule = [] ∨ ∃ rest, s.schedule = .engine :: rest) →
    decode s.latch.cmd = .ok i →
    step s = exec i { s with schedule := s.schedule.tail }

/-- R93, R94: a command with a nonzero reserved field ends with ILLEGAL_CMD whatever OP holds; one with
an unassigned OP ends with UNSUPPORTED; neither reads or writes data memory; and neither CTRL[31:1] nor
a write to a reserved offset makes a difference to anything. -/
def Obligations.UnassignedWordsEndInError : Prop :=
  (∀ s : State, s.status.state = .busy → (s.schedule = [] ∨ ∃ rest, s.schedule = .engine :: rest) →
    (s.latch.cmd.extractLsb' 8 24 ≠ 0#24 →
      step s = .next { s with
        schedule := s.schedule.tail, status := { state := .error, err := .illegalCmd } }) ∧
    (s.latch.cmd.extractLsb' 8 24 = 0#24 →
      ((0x04#8 ≤ s.latch.cmd.extractLsb' 0 8 ∧ s.latch.cmd.extractLsb' 0 8 ≤ 0x0F#8) ∨
        0x24#8 ≤ s.latch.cmd.extractLsb' 0 8) →
      step s = .next { s with
        schedule := s.schedule.tail, status := { state := .error, err := .unsupported } })) ∧
  (∀ (s : State) (v : Word), writeReg s .ctrl v = writeReg s .ctrl (v &&& 1#32)) ∧
  (∀ (s : State) (k : Nat) (v : Word), 10 ≤ k → k < 16 → writeOffset s (4 * k) v = s)

/-- R301: the checks of a decoded command in their order, each clause under the failure of none of the
earlier ones; when all pass the command ends in DONE. `needSrc` is the operation's own length rule. -/
def Obligations.ChecksDecideInOrder : Prop :=
  ∀ (i : Instr) (s : State),
    let src := s.latch.srcBase.toNat
    let dst := s.latch.dstBase.toNat
    let slen := s.latch.srcLen.toNat
    let dlen := s.latch.dstLen.toNat
    let need := needSrc i s.latch
    let out := s.latch.width.toNat * s.latch.height.toNat * 4
    let inRange := src + slen ≤ s.params.memSize ∧ dst + dlen ≤ s.params.memSize
    let overlap := 0 < need ∧ 0 < out ∧ src < dst + out ∧ dst < src + need
    (¬ inRange → exec i s = .next { s with status := { state := .error, err := .range } }) ∧
    (inRange → dlen < out →
      exec i s = .next { s with status := { state := .error, err := .dstShort } }) ∧
    (inRange → out ≤ dlen → slen < need →
      exec i s = .next { s with status := { state := .error, err := .srcShort } }) ∧
    (inRange → out ≤ dlen → need ≤ slen → overlap →
      exec i s = .next { s with status := { state := .error, err := .overlap } }) ∧
    (inRange → out ≤ dlen → need ≤ slen → ¬ overlap →
      ∃ m, exec i s = .next { s with status := { state := .done, err := .none }, mem := m })

/-- R302: when Execute returns Err(code), the completion step sets STATUS to ERROR with that code and
changes nothing else: not a byte of memory, not a register, not the latch. And only then: a completion
that ends in ERROR has the code of Execute, which is not NONE. -/
def Obligations.ErrorChangesStatusOnly : Prop :=
  ∀ s : State, s.status.state = .busy → nextAgent s = .engine →
    (∀ code, verdict s.params s.latch = .error code →
      step s = .next { s with
        schedule := s.schedule.tail, status := { state := .error, err := code } }) ∧
    (∀ t, step s = .next t → t.status.state = .error →
      verdict s.params s.latch = .error t.status.err ∧ t.status.err ≠ .none)

/-- R345: the completion step is enabled exactly while BUSY, and it ends in DONE or in ERROR: no command
faults, hangs or is refused. -/
def Obligations.EveryCompletionEndsInDoneOrError : Prop :=
  ∀ s : State, nextAgent s = .engine →
    (s.status.state = .busy → ∃ t, step s = .next t ∧
      (t.status = { state := .done, err := .none } ∨
        (t.status.state = .error ∧ t.status.err ≠ .none))) ∧
    (s.status.state ≠ .busy → step s = .next { s with schedule := s.schedule.tail })

/-! ### The pixel-format bank -/

/-- R160 to R164 and R169 to R171: the formats of 8-bit channels. `B k` is byte `k` of the pixel. -/
def Obligations.EightBitFormatsDecode : Prop :=
  FormatDecodes 0x10 .l8 1 (fun B => ⟨B 0, B 0, B 0, 255⟩) ∧
  FormatDecodes 0x11 .a8 1 (fun B => ⟨255, 255, 255, B 0⟩) ∧
  FormatDecodes 0x12 .r8 1 (fun B => ⟨B 0, 0, 0, 255⟩) ∧
  FormatDecodes 0x13 .l8a8 2 (fun B => ⟨B 0, B 0, B 0, B 1⟩) ∧
  FormatDecodes 0x14 .r8g8 2 (fun B => ⟨B 0, B 1, 0, 255⟩) ∧
  FormatDecodes 0x19 .r8g8b8 3 (fun B => ⟨B 0, B 1, B 2, 255⟩) ∧
  FormatDecodes 0x1A .r8g8b8a8 4 (fun B => ⟨B 0, B 1, B 2, B 3⟩) ∧
  FormatDecodes 0x1B .b8g8r8a8 4 (fun B => ⟨B 2, B 1, B 0, B 3⟩)

/-- R165 to R167 and R172: the packed formats. The channels are fields of the little-endian pixel word,
the first-named in the high bits; 5, 6, 4, 2 and 1 bits widen by replication, 10 bits drop their low
two. -/
def Obligations.PackedFormatsDecode : Prop :=
  let b5 (v : Nat) : Byte := BitVec.ofNat 8 (8 * v + v / 4)
  let b6 (v : Nat) : Byte := BitVec.ofNat 8 (4 * v + v / 16)
  let b4 (v : Nat) : Byte := BitVec.ofNat 8 (17 * v)
  let le2 (B : Nat → Byte) : Nat := (B 0).toNat + 256 * (B 1).toNat
  let le4 (B : Nat → Byte) : Nat := le2 B + 65536 * (B 2).toNat + 16777216 * (B 3).toNat
  FormatDecodes 0x15 .r5g6b5 2 (fun B =>
    ⟨b5 (le2 B / 2048 % 32), b6 (le2 B / 32 % 64), b5 (le2 B % 32), 255⟩) ∧
  FormatDecodes 0x16 .r5g5b5a1 2 (fun B =>
    ⟨b5 (le2 B / 2048 % 32), b5 (le2 B / 64 % 32), b5 (le2 B / 2 % 32),
      BitVec.ofNat 8 (255 * (le2 B % 2))⟩) ∧
  FormatDecodes 0x17 .r4g4b4a4 2 (fun B =>
    ⟨b4 (le2 B / 4096 % 16), b4 (le2 B / 256 % 16), b4 (le2 B / 16 % 16), b4 (le2 B % 16)⟩) ∧
  FormatDecodes 0x1C .r10g10b10a2 4 (fun B =>
    ⟨BitVec.ofNat 8 (le4 B / 4194304 % 1024 / 4), BitVec.ofNat 8 (le4 B / 4096 % 1024 / 4),
      BitVec.ofNat 8 (le4 B / 4 % 1024 / 4), BitVec.ofNat 8 (85 * (le4 B % 4))⟩)

/-- R168, R173, R175 and R176: of a little-endian 16-bit channel only the high byte matters. -/
def Obligations.SixteenBitFormatsDecode : Prop :=
  FormatDecodes 0x18 .r16 2 (fun B => ⟨B 1, 0, 0, 255⟩) ∧
  FormatDecodes 0x1D .r16g16 4 (fun B => ⟨B 1, B 3, 0, 255⟩) ∧
  FormatDecodes 0x1F .r16g16b16 6 (fun B => ⟨B 1, B 3, B 5, 255⟩) ∧
  FormatDecodes 0x20 .r16g16b16a16 8 (fun B => ⟨B 1, B 3, B 5, B 7⟩)

/-- R174, R177, R178 and R179: of a little-endian 32-bit channel only the top byte matters. -/
def Obligations.ThirtyTwoBitFormatsDecode : Prop :=
  FormatDecodes 0x1E .r32 4 (fun B => ⟨B 3, 0, 0, 255⟩) ∧
  FormatDecodes 0x21 .r32g32 8 (fun B => ⟨B 3, B 7, 0, 255⟩) ∧
  FormatDecodes 0x22 .r32g32b32 12 (fun B => ⟨B 3, B 7, B 11, 255⟩) ∧
  FormatDecodes 0x23 .r32g32b32a32 16 (fun B => ⟨B 3, B 7, B 11, B 15⟩)

/-- R144: the widening of every `b`-bit value for `1 ≤ b ≤ 7`, in the closed form of each width. -/
def Obligations.ReplicationWidensEveryValue : Prop :=
  (∀ v, v < 2 → rep8 v 1 = 255 * v) ∧
  (∀ v, v < 4 → rep8 v 2 = 85 * v) ∧
  (∀ v, v < 8 → rep8 v 3 = 32 * v + 4 * v + v / 2) ∧
  (∀ v, v < 16 → rep8 v 4 = 17 * v) ∧
  (∀ v, v < 32 → rep8 v 5 = 8 * v + v / 4) ∧
  (∀ v, v < 64 → rep8 v 6 = 4 * v + v / 16) ∧
  (∀ v, v < 128 → rep8 v 7 = 2 * v + v / 64) ∧
  (∀ b, 1 ≤ b → b ≤ 7 → rep8 0 b = 0 ∧ rep8 (2 ^ b - 1) b = 255)

/-- R143: normalisation keeps 8 bits as they are, keeps the most significant 8 of more (truncating),
replicates fewer, and its result is always in 0..255. -/
def Obligations.NormalisationIsEightBit : Prop :=
  (∀ v, n8 v 8 = v) ∧
  (∀ v b, 8 < b → n8 v b = v / 2 ^ (b - 8)) ∧
  (∀ v b, b < 8 → n8 v b = rep8 v b) ∧
  (∀ v b, 1 ≤ b → v < 2 ^ b → n8 v b ≤ 255)

/-- R152: an 8-bit value replicated to a channel width of the bank of at least 8 bits (8, 10, 16, 32)
decodes back to exactly itself; truncated to `b < 8` bits it decodes to a value with the same top `b`
bits, whose other bits may differ (V-SRC-9: 200 through 5 bits is 206). -/
def Obligations.ChannelsRoundTrip : Prop :=
  ∀ c, c < 256 →
    n8 c 8 = c ∧ n8 (4 * c + c / 64) 10 = c ∧ n8 (257 * c) 16 = c ∧ n8 (16843009 * c) 32 = c ∧
    ∀ b, 1 ≤ b → b ≤ 7 → n8 (c / 2 ^ (8 - b)) b / 2 ^ (8 - b) = c / 2 ^ (8 - b)

/-! ### The PVRTC decoder -/

/-- R240 and R241: the two PVRTC1 operations. -/
def Obligations.Pvrtc1CommandsDecode : Prop :=
  PvrtcDecodes 0x00 .pvrtc1_2bpp .pvrtc1 .two 8 16 ∧
  PvrtcDecodes 0x01 .pvrtc1_4bpp .pvrtc1 .four 4 8

/-- R242 and R243: the two PVRTC2 operations. -/
def Obligations.Pvrtc2CommandsDecode : Prop :=
  PvrtcDecodes 0x02 .pvrtc2_2bpp .pvrtc2 .two 8 16 ∧
  PvrtcDecodes 0x03 .pvrtc2_4bpp .pvrtc2 .four 4 8

/-- R97, R202, R204: word (x, y) of a grid stands at 8 times its twiddled index in PVRTC1 and row by row
in PVRTC2; its modulation is the little-endian value of bytes +0 to +3 and its colour that of bytes +4
to +7. `B k` is byte `k` of the word. -/
def Obligations.WordsStandAtTheirOffsets : Prop :=
  ∀ (m : Memory) (src : Nat) (v : Variant) (bpp : Bpp) (nx ny x y : Nat),
    let off := match v with
      | .pvrtc1 => 8 * twiddle nx ny x y
      | .pvrtc2 => 8 * (y * nx + x)
    let B (k : Nat) : Nat := (m.read (src + off + k)).toNat
    readWord m src { variant := v, bpp := bpp, nx := nx, ny := ny } x y =
      { mod := B 0 + 256 * B 1 + 65536 * B 2 + 16777216 * B 3,
        col := B 4 + 256 * B 5 + 65536 * B 6 + 16777216 * B 7 }

/-- R205: the words of every tile, with the toroidal index written out: -1 is the last word of the axis
and every other index is itself. Each word of the grid is P in exactly one tile, Q in one, R in one and
S in one. -/
def Obligations.TilesAreTheirNeighbours : Prop :=
  ∀ (m : Memory) (src : Nat) (g : Grid), 1 ≤ g.nx → 1 ≤ g.ny →
    let col (i : Int) : Nat := if i = -1 then g.nx - 1 else i.toNat
    let row (i : Int) : Nat := if i = -1 then g.ny - 1 else i.toNat
    let isTile (t : Int × Int) : Prop :=
      -1 ≤ t.1 ∧ t.1 ≤ (g.nx : Int) - 2 ∧ -1 ≤ t.2 ∧ t.2 ≤ (g.ny : Int) - 2
    (∀ t, isTile t →
      tileAt m src g t.1 t.2 =
        { p := readWord m src g (col t.1) (row t.2),
          q := readWord m src g (col (t.1 + 1)) (row t.2),
          r := readWord m src g (col t.1) (row (t.2 + 1)),
          s := readWord m src g (col (t.1 + 1)) (row (t.2 + 1)) }) ∧
    (∀ i : Int, -1 ≤ i → i < g.nx → wrap i g.nx = col i) ∧
    wrap (g.nx : Int) g.nx = 0 ∧
    (∀ i : Int, -1 ≤ i → i < g.ny → wrap i g.ny = row i) ∧
    wrap (g.ny : Int) g.ny = 0 ∧
    (∀ x y : Nat, x < g.nx → y < g.ny →
      (∃! t, isTile t ∧ (wrap t.1 g.nx, wrap t.2 g.ny) = (x, y)) ∧
      (∃! t, isTile t ∧ (wrap (t.1 + 1) g.nx, wrap t.2 g.ny) = (x, y)) ∧
      (∃! t, isTile t ∧ (wrap t.1 g.nx, wrap (t.2 + 1) g.ny) = (x, y)) ∧
      (∃! t, isTile t ∧ (wrap (t.1 + 1) g.nx, wrap (t.2 + 1) g.ny) = (x, y)))

/-- R205, R224: every scratch pixel of the covered area is written by exactly one pixel of exactly one
tile. -/
def Obligations.EachScratchPixelHasOneTilePixel : Prop :=
  ∀ (bpp : Bpp) (nx ny x y : Nat), x < nx * wordWidth bpp → y < ny * 4 →
    ∃! k : (Int × Nat) × (Int × Nat),
      (-1 ≤ k.1.1 ∧ k.1.1 ≤ (nx : Int) - 2 ∧ k.1.2 < wordWidth bpp) ∧
      (-1 ≤ k.2.1 ∧ k.2.1 ≤ (ny : Int) - 2 ∧ k.2.2 < 4) ∧
      scratchCoord (wordWidth bpp) nx k.1.1 k.1.2 = x ∧ scratchCoord 4 ny k.2.1 k.2.2 = y

/-- R203: the Morton index of word (x, y). Below `sc`, the number of bits the smaller dimension needs,
bit `k` of `x` is bit `2k` and bit `k` of `y` is bit `2k + 1`; the remaining bits of the longer axis
stand above them. -/
def Obligations.TwiddleInterleavesBits : Prop :=
  ∀ nx ny x y k : Nat,
    let sc := Nat.clog 2 (min nx ny)
    (k < sc → (twiddle nx ny x y).testBit (2 * k) = x.testBit k ∧
      (twiddle nx ny x y).testBit (2 * k + 1) = y.testBit k) ∧
    (twiddle nx ny x y).testBit (2 * sc + k) = (if nx < ny then y else x).testBit (sc + k)

/-- R228: a PVRTC1 command that is not empty, on a grid whose sides are powers of two, needs exactly
8·NX·NY source bytes. -/
def Obligations.PowerOfTwoGridNeedsItsWordsOnly : Prop :=
  ∀ (bpp : Bpp) (a : Args) (i j : Nat), a.width ≠ 0 → a.height ≠ 0 →
    (gridOf .pvrtc1 bpp a).nx = 2 ^ i → (gridOf .pvrtc1 bpp a).ny = 2 ^ j →
    pvrtcNeedSrc .pvrtc1 bpp a = 8 * 2 ^ i * 2 ^ j

/-- R67, R228: every word of a command's grid lies inside the bytes the command needs, and the last
needed byte is a byte of some word; an empty request needs none. -/
def Obligations.NeededBytesAreTheGridsBytes : Prop :=
  ∀ (v : Variant) (bpp : Bpp) (a : Args),
    (a.width = 0 ∨ a.height = 0 → pvrtcNeedSrc v bpp a = 0 ∧ needDst a = 0) ∧
    (a.width ≠ 0 → a.height ≠ 0 →
      (∀ x y, x < (gridOf v bpp a).nx → y < (gridOf v bpp a).ny →
        wordOffset (gridOf v bpp a) x y + 8 ≤ pvrtcNeedSrc v bpp a) ∧
      ∃ x y, x < (gridOf v bpp a).nx ∧ y < (gridOf v bpp a).ny ∧
        wordOffset (gridOf v bpp a) x y + 8 = pvrtcNeedSrc v bpp a)

/-- R206 to R208 with the fields of R98 and R99: both endpoints of every colour half in both variants,
and the hard flag. -/
def Obligations.EndpointsReadTheirFields : Prop :=
  let f (w : Word) (hi lo : Nat) : Nat := (w.extractLsb hi lo).toNat
  let w4 (v : Nat) : Nat := 2 * v + v / 8
  let w3 (v : Nat) : Nat := 4 * v + v / 2
  let opaqueA (w : Word) : Colour := ⟨f w 14 10, f w 9 5, w4 (f w 4 1), 15⟩
  let clearA (w : Word) : Colour :=
    ⟨w4 (f w 11 8), w4 (f w 7 4), w3 (f w 3 1), 2 * f w 14 12⟩
  let opaqueB (w : Word) : Colour := ⟨f w 30 26, f w 25 21, f w 20 16, 15⟩
  let clearB (w : Word) : Colour :=
    ⟨w4 (f w 27 24), w4 (f w 23 20), w4 (f w 19 16), 2 * f w 30 28⟩
  ∀ w : Word,
    colourA .pvrtc1 w.toNat = (if w[15] then opaqueA w else clearA w) ∧
    colourB .pvrtc1 w.toNat = (if w[31] then opaqueB w else clearB w) ∧
    colourA .pvrtc2 w.toNat = (if w[31] then opaqueA w else clearA w) ∧
    colourB .pvrtc2 w.toNat = (if w[31] then opaqueB w else clearB w) ∧
    isHard .pvrtc1 w.toNat = false ∧ isHard .pvrtc2 w.toNat = w[15]

/-- R210 to R212 and R216: the 4bpp weight of a tile pixel is the table's entry for the 2-bit code of
the pixel of the owner word that it lands on; under PVRTC2 with MODFLAG = 1 code 2 is 15. -/
def Obligations.FourBppWeightsFollowTheTable : Prop :=
  ∀ (v : Variant) (t : Tile) (c r : Nat), c < 4 → r < 4 →
    let k := 4 * ((r + 2) % 4) + (c + 2) % 4
    let own := t.owner .four c r
    let code := own.mod / 4 ^ k % 4
    tileWeight v .four t c r =
      if code = 0 then 0
      else if code = 1 then 3
      else if code = 2 then (if v = .pvrtc2 ∧ own.col % 2 = 1 then 15 else 5)
      else 8

/-- R213 to R216: the 2bpp weights. First, at every place of the 16×8 combined grid: a place of a direct
word has the weight 8 or 0 of its bit, and a stored place (x + y even) of an interpolated word the
table's entry for its code after the fix-ups, each in the word among P, Q, R and S that holds it. Then
the weight of a tile pixel, which is the one at (c + 4, r + 2): as above in a direct word and at a stored
place, and elsewhere the rounded average of the weights of the neighbours that the sub-mode names, each
of which the first clause gives. -/
def Obligations.TwoBppWeightsFollowTheSubMode : Prop :=
  ∀ (v : Variant) (t : Tile),
    let w (x y : Nat) : Nat := weightAt v .two t x y
    let table (code : Nat) : Nat :=
      if code = 0 then 0 else if code = 1 then 3 else if code = 2 then 5 else 8
    let direct (m x y : Nat) : Nat := if m / 2 ^ (8 * y + x) % 2 = 1 then 8 else 0
    let stored (m x y : Nat) : Nat := table (fixedMod m / 4 ^ (4 * y + x / 2) % 4)
    (∀ x y, x < 16 → y < 8 →
      let holder :=
        if y < 4 then (if x < 8 then t.p else t.q) else (if x < 8 then t.r else t.s)
      (holder.col % 2 = 0 → w x y = direct holder.mod (x % 8) (y % 4)) ∧
      (holder.col % 2 = 1 → (x + y) % 2 = 0 → w x y = stored holder.mod (x % 8) (y % 4))) ∧
    (∀ c r, c < 8 → r < 4 →
      let own := t.owner .two c r
      let lx := (c + 4) % 8
      let ly := (r + 2) % 4
      (own.col % 2 = 0 → tileWeight v .two t c r = direct own.mod lx ly) ∧
      (own.col % 2 = 1 → (c + r) % 2 = 0 → tileWeight v .two t c r = stored own.mod lx ly) ∧
      (own.col % 2 = 1 → (c + r) % 2 = 1 → own.mod % 2 = 0 →
        tileWeight v .two t c r =
          (w (c + 4) (r + 1) + w (c + 4) (r + 3) + w (c + 3) (r + 2) + w (c + 5) (r + 2) + 2) / 4) ∧
      (own.col % 2 = 1 → (c + r) % 2 = 1 → own.mod % 2 = 1 → own.mod / 2 ^ 20 % 2 = 0 →
        tileWeight v .two t c r = (w (c + 3) (r + 2) + w (c + 5) (r + 2) + 1) / 2) ∧
      (own.col % 2 = 1 → (c + r) % 2 = 1 → own.mod % 2 = 1 → own.mod / 2 ^ 20 % 2 = 1 →
        tileWeight v .two t c r = (w (c + 4) (r + 1) + w (c + 4) (r + 3) + 1) / 2))

/-- R214: the fix-ups. Bit 0 takes bit 1; when bit 0 was 1, bit 20 takes bit 21; no other bit changes. -/
def Obligations.FixUpsReplaceTheFlagBits : Prop :=
  ∀ m j : Nat, (fixedMod m).testBit j =
    if j = 0 then m.testBit 1
    else if j = 20 ∧ m.testBit 0 = true then m.testBit 21
    else m.testBit j

/-- R216, R217: a tile weight is in 0..8 in every mode, and 15 only for code 2 of a PVRTC2 4bpp word
with MODFLAG = 1. -/
def Obligations.WeightsStayInRange : Prop :=
  ∀ (v : Variant) (bpp : Bpp) (t : Tile) (c r : Nat), c < wordWidth bpp → r < 4 →
    tileWeight v bpp t c r ≤ 8 ∨
    (tileWeight v bpp t c r = 15 ∧ v = .pvrtc2 ∧ bpp = .four ∧ (t.owner bpp c r).col % 2 = 1 ∧
      (t.owner bpp c r).mod / 4 ^ (4 * ((r + 2) % 4) + (c + 2) % 4) % 4 = 2)

/-- R218, R219: the interpolated endpoint. `acc` is the bilinear accumulator of one channel. Its range is
R218's; every scaled channel is in 0..255; at the tile's corner it is the bit-replicated value of P
alone; and four equal words give that value everywhere. -/
def Obligations.InterpolationScalesToEightBits : Prop :=
  ∀ (bpp : Bpp) (c r : Nat) (p q r' s : Colour), c < wordWidth bpp → r < 4 →
    let ww := match bpp with
      | .four => 4
      | .two => 8
    let acc (ch : Colour → Nat) : Nat :=
      (4 - r) * ((ww - c) * ch p + c * ch q) + r * ((ww - c) * ch r' + c * ch s)
    let rgb (x : Nat) : Nat := match bpp with
      | .four => x / 64 + x / 2
      | .two => x / 128 + x / 4
    let alpha (x : Nat) : Nat := match bpp with
      | .four => x / 16 + x
      | .two => x / 32 + x / 2
    let working (e : Colour) : Prop := e.r < 32 ∧ e.g < 32 ∧ e.b < 32 ∧ e.a < 16
    let widened (e : Colour) : Colour :=
      { r := 8 * e.r + e.r / 4, g := 8 * e.g + e.g / 4, b := 8 * e.b + e.b / 4, a := 17 * e.a }
    let out := interpolate bpp c r p q r' s
    out = { r := rgb (acc (·.r)), g := rgb (acc (·.g)), b := rgb (acc (·.b)), a := alpha (acc (·.a)) } ∧
    (working p → working q → working r' → working s →
      acc (·.r) ≤ 124 * ww ∧ acc (·.g) ≤ 124 * ww ∧ acc (·.b) ≤ 124 * ww ∧ acc (·.a) ≤ 60 * ww ∧
      out.r ≤ 255 ∧ out.g ≤ 255 ∧ out.b ≤ 255 ∧ out.a ≤ 255) ∧
    (working p → c = 0 ∧ r = 0 ∨ q = p ∧ r' = p ∧ s = p → out = widened p)

/-- R220: the quadrant of a hard PVRTC2 word takes that word's own endpoints, flat, with the alpha of
HARD_ALPHA_MODE; every other pixel interpolates. `colour` is the endpoint, A or B. -/
def Obligations.HardQuadrantsAreFlat : Prop :=
  ∀ (v : Variant) (bpp : Bpp) (mode : HardAlphaMode) (t : Tile) (c r : Nat) (colour : Nat → Colour),
    c < wordWidth bpp → r < 4 → colour = colourA v ∨ colour = colourB v →
    let own :=
      if r < 2 then (if c < wordWidth bpp / 2 then t.p else t.q)
      else (if c < wordWidth bpp / 2 then t.r else t.s)
    (v = .pvrtc2 → own.col / 2 ^ 15 % 2 = 1 →
      let e := colour own.col
      endpointAt v bpp mode t c r colour =
        { r := 8 * e.r + e.r / 4, g := 8 * e.g + e.g / 4, b := 8 * e.b + e.b / 4,
          a := match mode with
            | .zero => 0
            | .endpoint => 17 * e.a }) ∧
    (v = .pvrtc1 ∨ own.col / 2 ^ 15 % 2 = 0 →
      endpointAt v bpp mode t c r colour =
        interpolate bpp c r (colour t.p.col) (colour t.q.col) (colour t.r.col) (colour t.s.col))

/-- R221: a pixel whose weight is above 10 is (0, 0, 0, 0), whatever its endpoints are; and that happens
in PVRTC2 4bpp only. -/
def Obligations.PunchThroughClearsThePixel : Prop :=
  ∀ (v : Variant) (bpp : Bpp) (mode : HardAlphaMode) (t : Tile) (c r : Nat),
    10 < tileWeight v bpp t c r →
    (tilePixel v bpp mode t c r).bytes = [0, 0, 0, 0] ∧ v = .pvrtc2 ∧ bpp = .four

/-- R222, R223: any other pixel is, per channel, the one truncating division of the blended sum; the
quotient is in 0..255, so the clamp of R223 and the narrowing to a byte change nothing. -/
def Obligations.BlendNeedsNoClamp : Prop :=
  ∀ (v : Variant) (bpp : Bpp) (mode : HardAlphaMode) (t : Tile) (c r : Nat),
    c < wordWidth bpp → r < 4 → tileWeight v bpp t c r ≤ 10 →
    let w := tileWeight v bpp t c r
    let a := endpointAt v bpp mode t c r (colourA v)
    let b := endpointAt v bpp mode t c r (colourB v)
    let px := tilePixel v bpp mode t c r
    w ≤ 8 ∧
    px.r.toNat = (a.r * (8 - w) + b.r * w) / 8 ∧ px.g.toNat = (a.g * (8 - w) + b.g * w) / 8 ∧
    px.b.toNat = (a.b * (8 - w) + b.b * w) / 8 ∧ px.a.toNat = (a.a * (8 - w) + b.a * w) / 8

/-- R227, R241: a 4bpp PVRTC1 request below the floor gives the top-left pixels of the floor-sized
request over the same source. -/
def Obligations.SmallRequestsCropTheFloor : Prop :=
  ∀ s s' : State,
    s.mem = s'.mem → s.params = s'.params → s.latch.srcBase = s'.latch.srcBase →
    s.latch.width.toNat ≤ 8 → s.latch.height.toNat ≤ 8 →
    s'.latch.width.toNat = 8 → s'.latch.height.toNat = 8 →
    s.Accepts (pvrtcNeedSrc .pvrtc1 .four s.latch) →
    s'.Accepts (pvrtcNeedSrc .pvrtc1 .four s'.latch) →
    ∃ t t', exec .pvrtc1_4bpp s = .next t ∧ exec .pvrtc1_4bpp s' = .next t' ∧
      ∀ x y, x < s.latch.width.toNat → y < s.latch.height.toNat →
        t.mem.readBytes (s.latch.dstBase.toNat + (y * s.latch.width.toNat + x) * 4) 4 =
          t'.mem.readBytes (s'.latch.dstBase.toNat + (y * 8 + x) * 4) 4

/-- R241: a 4bpp PVRTC1 texture whose words all hold one code and one colour half decodes to a perfectly
uniform raster, at every size whose words cover it. -/
def Obligations.UniformTexturesDecodeUniformly : Prop :=
  ∀ (s : State) (code col : Nat), code < 4 →
    (s.latch.width.toNat < 8 ∨ s.latch.width.toNat % 4 = 0) →
    (s.latch.height.toNat < 8 ∨ s.latch.height.toNat % 4 = 0) →
    s.Accepts (pvrtcNeedSrc .pvrtc1 .four s.latch) →
    (∀ x y, x < (gridOf .pvrtc1 .four s.latch).nx → y < (gridOf .pvrtc1 .four s.latch).ny →
      readWord s.mem s.latch.srcBase.toNat (gridOf .pvrtc1 .four s.latch) x y =
        { mod := code * 0x55555555, col := col }) →
    ∃ px : Rgba, Completes .pvrtc1_4bpp s fun _ _ => px

/-! ### What a command reads and leaves -/

/-- R67: an accepted command's output depends only on the `needSrc` bytes from SRC_BASE on: two memories
that agree there give the same destination bytes, whatever else they hold. -/
def Obligations.OutputDependsOnSourceBytesOnly : Prop :=
  ∀ (i : Instr) (s : State) (m' : Memory), s.Accepts (needSrc i s.latch) →
    (∀ k, k < needSrc i s.latch →
      s.mem.read (s.latch.srcBase.toNat + k) = m'.read (s.latch.srcBase.toNat + k)) →
    ∃ t t', exec i s = .next t ∧ exec i { s with mem := m' } = .next t' ∧ t.status = t'.status ∧
      ∀ k, k < s.latch.width.toNat * s.latch.height.toNat * 4 →
        t.mem.read (s.latch.dstBase.toNat + k) = t'.mem.read (s.latch.dstBase.toNat + k)

/-- R69, R227: running the same command again over what it left changes no byte. -/
def Obligations.DecodingAgainChangesNothing : Prop :=
  ∀ (i : Instr) (s t : State), s.Accepts (needSrc i s.latch) → exec i s = .next t →
    ∃ u, exec i t = .next u ∧ u.status = t.status ∧ (∀ addr, u.mem.read addr = t.mem.read addr) ∧
      (s.mem.wf = true → u = t)

/-- R70, R95, R301: an accepted command's source and destination bytes lie in the data memory and do not
meet, so the command leaves every source byte as it was (R74: the engine never writes its own source). -/
def Obligations.SourceBytesSurviveTheCommand : Prop :=
  ∀ (i : Instr) (s : State), s.Accepts (needSrc i s.latch) →
    ∃ t, exec i s = .next t ∧
      ∀ k, k < needSrc i s.latch →
        s.latch.srcBase.toNat + k < s.params.memSize ∧
        t.mem.read (s.latch.srcBase.toNat + k) = s.mem.read (s.latch.srcBase.toNat + k)

/-- R7, R151, R227, R308: NUM_UNITS cannot be observed. -/
def Obligations.UnitCountIsUnobservable : Prop :=
  ∀ (i : Instr) (s : State) (n : Nat),
    ∃ t, exec i s = .next t ∧
      exec i { s with params := { s.params with numUnits := n } } =
        .next { t with params := { t.params with numUnits := n } }

/-! ### Registers and the host -/

/-- R33 with the codes of R300: the fields of the STATUS word with their numbers. STATE in [1:0], ERR in
[11:8], every other bit 0, and ERR codes 7 to 15 never appear (U17). -/
def Obligations.StatusWordHoldsItsFields : Prop :=
  ∀ st : Status,
    st.word.extractLsb' 0 2 =
      (match st.state with
        | .idle => 0#2
        | .busy => 1#2
        | .done => 2#2
        | .error => 3#2) ∧
    st.word.extractLsb' 2 6 = 0#6 ∧
    st.word.extractLsb' 8 4 =
      (match st.err with
        | .none => 0#4
        | .illegalCmd => 1#4
        | .unsupported => 2#4
        | .range => 3#4
        | .dstShort => 4#4
        | .srcShort => 5#4
        | .overlap => 6#4) ∧
    st.word.extractLsb' 12 20 = 0#20 ∧
    st.word.extractLsb' 8 4 ≤ 6#4

/-- R23 to R34: what a host read of every slot of the window returns, in every state, BUSY or not; and
that a read changes no register, no byte, neither STATUS nor the latch, and neither what the host will do
nor the order of the agents. What it does to the unread commands is StatusReadEndsTheWindow. -/
def Obligations.RegisterReadsReturnTheirValues : Prop :=
  ∀ s : State,
    let reads (offset : Nat) (v : Word) : Prop :=
      ∃ t, hostStep (.regRead (s.params.regBase + offset) 32) s = .next t ∧
        t.trace = .regValue (s.params.regBase + offset) v :: s.trace ∧
        t.regs = s.regs ∧ t.status = s.status ∧ t.latch = s.latch ∧ t.mem = s.mem ∧
        t.params = s.params ∧ t.hostQueue = s.hostQueue ∧ t.schedule = s.schedule
    reads 0x00 0x50564452#32 ∧ reads 0x04 s.regs.cmd ∧ reads 0x08 s.regs.width ∧
    reads 0x0C s.regs.height ∧ reads 0x10 s.regs.srcBase ∧ reads 0x14 s.regs.srcLen ∧
    reads 0x18 s.regs.dstBase ∧ reads 0x1C s.regs.dstLen ∧ reads 0x20 0#32 ∧
    reads 0x24 s.status.word ∧
    ∀ k, 10 ≤ k → k < 16 → reads (4 * k) 0#32

/-- R35, with R344(a) where the parameter takes its reading (log 7): (a) an access that is not 32 bits
wide at a multiple of 4 inside the window of registers faults; that a write which the host must not make
either faults with this kind and not the other is the model's choice (log 9); (b) a write while the host
must not write registers faults, with R35(b)'s kind (after BUSY the model's choice of the kind, log 11),
and reads go on; (c) otherwise, in particular from DONE and ERROR under 10_state.md's own reading, a write
to an RW register stores all 32 bits and changes nothing else, and a write to ID, STATUS or a reserved
offset is ignored. -/
def Obligations.RegisterAccessRules : Prop :=
  ∀ s : State,
    let held : Prop := s.status.state = .busy ∨
      (s.params.regWriteDuty = .untilStatusRead ∧ s.unread ≠ [])
    (∀ addr bits v, ¬ (bits = 32 ∧ ∃ k, k < 16 ∧ addr = s.params.regBase + 4 * k) →
      hostStep (.regWrite addr bits v) s = .fault (.hostHazard .regAccess) ∧
      hostStep (.regRead addr bits) s = .fault (.hostHazard .regAccess)) ∧
    (held → ∀ k v, k < 16 →
      hostStep (.regWrite (s.params.regBase + 4 * k) 32 v) s = .fault (.hostHazard .regWriteBusy) ∧
      ∃ t, hostStep (.regRead (s.params.regBase + 4 * k) 32) s = .next t ∧
        t.trace = .regValue (s.params.regBase + 4 * k) (readOffset s (4 * k)) :: s.trace) ∧
    (¬ held → ∀ v,
      hostStep (.regWrite (s.params.regBase + 0x04) 32 v) s =
        .next { s with regs := { s.regs with cmd := v } } ∧
      hostStep (.regWrite (s.params.regBase + 0x08) 32 v) s =
        .next { s with regs := { s.regs with width := v } } ∧
      hostStep (.regWrite (s.params.regBase + 0x0C) 32 v) s =
        .next { s with regs := { s.regs with height := v } } ∧
      hostStep (.regWrite (s.params.regBase + 0x10) 32 v) s =
        .next { s with regs := { s.regs with srcBase := v } } ∧
      hostStep (.regWrite (s.params.regBase + 0x14) 32 v) s =
        .next { s with regs := { s.regs with srcLen := v } } ∧
      hostStep (.regWrite (s.params.regBase + 0x18) 32 v) s =
        .next { s with regs := { s.regs with dstBase := v } } ∧
      hostStep (.regWrite (s.params.regBase + 0x1C) 32 v) s =
        .next { s with regs := { s.regs with dstLen := v } } ∧
      hostStep (.regWrite s.params.regBase 32 v) s = .next s ∧
      hostStep (.regWrite (s.params.regBase + 0x24) 32 v) s = .next s ∧
      ∀ k, 10 ≤ k → k < 16 → hostStep (.regWrite (s.params.regBase + 4 * k) 32 v) s = .next s)

/-- R71(c), R344: which commands the host has not seen end. START adds the latched command (the words of
the registers); a host read of STATUS with STATE ≠ BUSY, by RD or by POLL, empties the list, and so does
reset; no other step to a next state changes it, in particular not the completion (log 7) and not a read
of STATUS while BUSY. -/
def Obligations.StatusReadEndsTheWindow : Prop :=
  ∀ s t : State, step s = .next t →
    t.unread =
      (if s.status.state ≠ .busy ∧ t.status.state = .busy then s.regs :: s.unread
      else if nextAgent s = .host ∧
          (s.hostQueue.head? = some .reset ∨
            (s.status.state ≠ .busy ∧
              (s.hostQueue.head? = some (.regRead (s.params.regBase + 0x24) 32) ∨
                s.hostQueue.head? = some .poll))) then []
      else s.unread)

/-- R105: POLL is a read of STATUS, and the host repeats it until STATE is DONE or ERROR; it changes
nothing but what the host has read and the host's own duty (in IDLE it repeats too, log 14). -/
def Obligations.PollReadsStatusUntilTheEnd : Prop :=
  ∀ s : State, hostStep .poll s = .next { s with
    trace := .regValue (s.params.regBase + 0x24) s.status.word :: s.trace
    unread := if s.status.state = .busy then s.unread else []
    hostQueue := if s.status.state = .done ∨ s.status.state = .error then s.hostQueue
      else .poll :: s.hostQueue }

/-- R32, R36, R37: CTRL. Writing 1 to START, from IDLE, DONE and ERROR alike, latches the seven registers
and makes STATUS {BUSY, NONE}; writing 0 has no effect whatever the other bits are; CTRL reads 0; and a
write while the host must not write registers is a host hazard. That is while BUSY; under R344(a)'s
reading also until the host has read STATUS (log 7; after BUSY the model's choice of the kind, log 11). -/
def Obligations.StartLatchesTheArguments : Prop :=
  ∀ (s : State) (v : Word),
    let wr := HostOp.regWrite (s.params.regBase + 0x20) 32 v
    let held : Prop := s.status.state = .busy ∨
      (s.params.regWriteDuty = .untilStatusRead ∧ s.unread ≠ [])
    (¬ held → v[0] = true →
      hostStep wr s = .next { s with
        latch := s.regs
        status := { state := .busy, err := .none }
        unread := s.regs :: s.unread }) ∧
    (¬ held → v[0] = false → hostStep wr s = .next s) ∧
    (held → hostStep wr s = .fault (.hostHazard .regWriteBusy)) ∧
    readReg s .ctrl = 0#32

/-- R37, R38: only START, the completion step and reset write STATUS; so ERROR keeps its code until the
next START or reset (R303). START is the host's 32-bit write to CTRL of a value with bit 0 = 1. -/
def Obligations.OnlyThreeEventsWriteStatus : Prop :=
  ∀ s t : State, step s = .next t →
    t.status = s.status ∨
    (s.status.state ≠ .busy ∧ nextAgent s = .host ∧
      (∃ v rest, s.hostQueue = .regWrite (s.params.regBase + 0x20) 32 v :: rest ∧ v[0] = true) ∧
      t.status = { state := .busy, err := .none } ∧ t.latch = s.regs) ∨
    (s.status.state = .busy ∧ nextAgent s = .engine ∧
      (t.status = { state := .done, err := .none } ∨
        (t.status.state = .error ∧ verdict s.params s.latch = .error t.status.err))) ∨
    (∃ rest, s.hostQueue = .reset :: rest ∧ nextAgent s = .host ∧
      t.status = { state := .idle, err := .none })

/-- R36, R37: the latch is written by START, the host's 32-bit write to CTRL of a value with bit 0 = 1,
which copies the registers, and by reset (to the value of log 4), and by nothing else; and no step changes
the parameters (R7). -/
def Obligations.OnlyStartAndResetWriteTheLatch : Prop :=
  ∀ s t : State, step s = .next t →
    t.params = s.params ∧
    (t.latch = s.latch ∨
      (s.status.state ≠ .busy ∧ nextAgent s = .host ∧
        (∃ v rest, s.hostQueue = .regWrite (s.params.regBase + 0x20) 32 v :: rest ∧ v[0] = true) ∧
        t.status.state = .busy ∧ t.latch = s.regs) ∨
      (∃ rest, s.hostQueue = .reset :: rest ∧ nextAgent s = .host ∧ t.status.state = .idle))

/-- R35(b), R36, and R344(a) under its reading (log 7): while the host must not write registers, no step
but a reset changes an argument register or the latch. -/
def Obligations.RegistersAreStableWhileBusy : Prop :=
  ∀ s t : State, step s = .next t →
    s.status.state = .busy ∨ (s.params.regWriteDuty = .untilStatusRead ∧ s.unread ≠ []) →
    s.hostQueue.head? ≠ some .reset ∨ nextAgent s = .engine →
    t.regs = s.regs ∧ t.latch = s.latch

/-- R344(b) and (c), with R71 and R305: a host read or write that touches a byte of the source or
destination region of the running command, or of one started since the host last read STATUS with STATE ≠
BUSY (log 7), is HostHazard(MEM_BUSY) (after BUSY the model's choice of the kind, log 11); and a host
access to any other bytes of the data memory goes on. For a command that ends in ERROR both regions are
empty. -/
def Obligations.HostMemoryDuties : Prop :=
  ∀ (s : State) (addr : Nat) (bytes : List Byte), addr + bytes.length ≤ s.params.memSize →
    let touched : Prop :=
      ∃ a i k, ((s.status.state = .busy ∧ a = s.latch) ∨ a ∈ s.unread) ∧
        verdict s.params a = .ok i ∧ (addr ≤ k ∧ k < addr + bytes.length) ∧
        ((a.srcBase.toNat ≤ k ∧ k < a.srcBase.toNat + needSrc i a) ∨
          (a.dstBase.toNat ≤ k ∧ k < a.dstBase.toNat + a.width.toNat * a.height.toNat * 4))
    (touched →
      hostStep (.memWrite addr bytes) s = .fault (.hostHazard .memBusy) ∧
      hostStep (.memRead addr bytes.length) s = .fault (.hostHazard .memBusy)) ∧
    (¬ touched →
      (∃ m, hostStep (.memWrite addr bytes) s = .next { s with mem := m } ∧
        (∀ k (h : k < bytes.length), m.read (addr + k) = bytes[k]) ∧
        SameOutside s.mem m addr bytes.length) ∧
      hostStep (.memRead addr bytes.length) s =
        .next { s with trace := .memBytes addr (s.mem.readBytes addr bytes.length) :: s.trace })

/-- R344: a host write to other bytes while a command runs does not interact with the command: it ends
the same way, and the memory it leaves is the one it would have left, with the host's bytes in it. -/
def Obligations.HostWritesElsewhereDoNotInteract : Prop :=
  ∀ (s u : State) (addr : Nat) (bytes : List Byte), s.status.state = .busy →
    hostStep (.memWrite addr bytes) s = .next u →
    ∃ t v, completeCommand s = .next t ∧ completeCommand u = .next v ∧ v.status = t.status ∧
      v.regs = t.regs ∧ v.latch = t.latch ∧
      ∀ x, v.mem.read x = if addr ≤ x ∧ x < addr + bytes.length then u.mem.read x else t.mem.read x

/-- R68: while a command runs on, no byte of its source or destination region changes: the engine
writes only at the completion, and the host may not write there. -/
def Obligations.NoPartialRasterIsSeen : Prop :=
  ∀ (s t : State) (i : Instr), s.status.state = .busy → step s = .next t → t.status.state = .busy →
    verdict s.params s.latch = .ok i →
    ∀ x, (s.latch.srcBase.toNat ≤ x ∧ x < s.latch.srcBase.toNat + needSrc i s.latch) ∨
      (s.latch.dstBase.toNat ≤ x ∧
        x < s.latch.dstBase.toNat + s.latch.width.toNat * s.latch.height.toNat * 4) →
      t.mem.read x = s.mem.read x

/-- R106: writes to two different argument registers have the same effect in either order. -/
def Obligations.ArgumentWritesCommute : Prop :=
  ∀ (s : State) (r r' : RegName) (v v' : Word), r ≠ r' → r ≠ .ctrl → r' ≠ .ctrl →
    writeReg (writeReg s r v) r' v' = writeReg (writeReg s r' v') r v

/-- R106 with R37 and R105: the DECODE pseudo-operation, from IDLE, DONE and ERROR alike (under R344(a)'s
reading, log 7, once the host has read STATUS). The empty schedule says that the environment leaves the engine to move as soon as it can (log 2).
Seven register writes, START, the completion and the POLL leave the registers at the arguments, STATUS at
the verdict of Execute (as the POLL reads it), and memory as the completion of those arguments leaves
it. -/
def Obligations.DecodePseudoOperationRunsTheCommand : Prop :=
  ∀ (s : State) (a : Args) (rest : List HostOp),
    s.status.state ≠ .busy → (s.params.regWriteDuty = .untilStatusRead → s.unread = []) →
    s.schedule = [] →
    s.hostQueue = hostDecode s.params a ++ rest →
    ∃ t u, Host.Core.run Sys2Proof.core 10 s = .next t ∧
      completeCommand { s with latch := a } = .next u ∧
      t.status = u.status ∧ t.mem = u.mem ∧ t.regs = a ∧ t.latch = a ∧ t.hostQueue = rest ∧
      t.unread = [] ∧
      t.trace = .regValue (s.params.regBase + 0x24) u.status.word :: s.trace ∧
      (match verdict s.params a with
        | .error code => u.status = { state := .error, err := code } ∧ u.mem = s.mem
        | .ok _ => u.status = { state := .done, err := .none })

/-! ### Reset -/

/-- R340, R342: the reset input, from any state, in one step: every argument register is 0, STATUS is 0
(IDLE, NONE), ID reads its constant, and the data memory is unchanged unless a command was running. -/
def Obligations.ResetSetsEveryRegister : Prop :=
  ∀ s : State, ∃ t, hostStep .reset s = .next t ∧
    t.regs = ⟨0, 0, 0, 0, 0, 0, 0⟩ ∧ t.status = { state := .idle, err := .none } ∧
    t.status.word = 0#32 ∧ readReg t .id = 0x50564452#32 ∧ t.params = s.params ∧
    (s.status.state ≠ .busy → t.mem = s.mem)

/-- R341: a reset while BUSY abandons the command. Every byte outside its destination region is
unchanged; the bytes inside are free values, of which nothing is known (`Config.freeByte`, log 5). That
memory is unchanged when the command would have ended in ERROR is the model's reading and not R341's
words (log 10: R344 takes the regions of such a command as empty). -/
def Obligations.ResetWhileBusyFreesTheDestination : Prop :=
  ∀ s : State, s.status.state = .busy → ∃ t, hostStep .reset s = .next t ∧
    t.regs = ⟨0, 0, 0, 0, 0, 0, 0⟩ ∧ t.status = { state := .idle, err := .none } ∧
    engineTurn t = .next t ∧
    (∀ code, verdict s.params s.latch = .error code → t.mem = s.mem) ∧
    (∀ i, verdict s.params s.latch = .ok i →
      let n := s.latch.width.toNat * s.latch.height.toNat * 4
      SameOutside s.mem t.mem s.latch.dstBase.toNat n ∧
      ∀ k, k < n → ∃ j, t.mem.read (s.latch.dstBase.toNat + k) = Config.freeByte j)

/-- R42: what the machine right after reset reads as. -/
def Obligations.ResetStateReadsAsTheTable : Prop :=
  readReg State.reset .id = 0x50564452#32 ∧
  (∀ r : RegName, r ≠ .id → readReg State.reset r = 0#32) ∧
  (∀ k, 10 ≤ k → k < 16 → readOffset State.reset (4 * k) = 0#32) ∧
  State.reset.status = { state := .idle, err := .none }

/-! ### The machine as a whole -/

/-- The invariant holds right after reset. -/
def Obligations.ResetStateMeetsTheInvariant : Prop :=
  State.reset.Inv

/-- R33, R36, R60, R344: every step keeps the invariant, from every state that meets it: memory stays
canonical and below MEM_SIZE, ERR is NONE exactly outside ERROR, the latch equals the registers for as
long as the host must not write them, and the commands the host has not seen end are headed by the latched
one, some while BUSY, none in IDLE, and at most one under R344(a)'s reading (log 7). -/
def Obligations.EveryStepKeepsTheInvariant : Prop :=
  ∀ s t : State, s.Inv → step s = .next t → t.Inv

/-- R37, R345: every started command ends. From every BUSY state, whatever the host still does and
however the environment orders the agents, within one step more than the environment's choices the
machine is out of BUSY, or a host step has faulted on the way: a host hazard (R305), or the model's own
hostOutsideMemory for a host access outside the data memory (the model's choice, log 8). The bound rests on the model's form of
R345's weak fairness (log 2): the environment's choices are a finite list, after which a BUSY engine
moves. -/
def Obligations.EveryCommandEnds : Prop :=
  ∀ s : State, s.status.state = .busy →
    ∃ k, k ≤ s.schedule.length + 1 ∧
      ((∃ t, Host.Core.run Sys2Proof.core k s = .next t ∧ t.status.state ≠ .busy) ∨
        ∃ f, Host.Core.run Sys2Proof.core k s = .fault f)

/-- No step is refused, and a step that faults is a register or memory access of the host: the engine never
faults, nor does POLL or reset. The fault is a host hazard (R305), or the model's own hostOutsideMemory
for a host access outside the data memory (the model's choice, log 8). -/
def Obligations.OnlyHostStepsFault : Prop :=
  ∀ s : State, (∀ r, step s ≠ .refused r) ∧
    (∀ f, step s = .fault f → nextAgent s = .host ∧ ∃ op rest, s.hostQueue = op :: rest ∧
      op ≠ .poll ∧ op ≠ .reset)
end

