-- ==== Sys2Proof/Laws/Memory.lean ====
section
/-! SUPPORT. Laws of the data memory: what a read gives after a write, that every write keeps the
canonical form and the size, and what a raster leaves at each pixel. -/

namespace Sys2Proof.Machine

/-! ### Looking up in the pieces of a write -/

theorem Memory.lookup_cell (c : Host.Cell) (m : Memory) (x : Nat) :
    List.lookup x (c :: m) = if x = c.1 then some c.2 else List.lookup x m := by
  obtain ⟨a, b⟩ := c
  rw [List.lookup_cons]
  by_cases h : x = a
  · simp [h]
  · rw [show (x == a) = false by simpa using h]
    simp [h]

theorem Memory.lookup_filter_of_keep (m : Memory) (keep : Nat → Bool) (x : Nat) (h : keep x = true) :
    (m.filter fun c => keep c.1).lookup x = m.lookup x := by
  induction m with
  | nil => rfl
  | cons c m ih =>
    by_cases hk : keep c.1 = true
    · simp [hk, Memory.lookup_cell, ih]
    · have hne : x ≠ c.1 := by
        rintro rfl
        exact hk h
      simp [hk, Memory.lookup_cell, ih, hne]

theorem Memory.lookup_filter_of_drop (m : Memory) (keep : Nat → Bool) (x : Nat) (h : keep x = false) :
    (m.filter fun c => keep c.1).lookup x = none := by
  rw [List.lookup_eq_none_iff]
  intro p hp
  have hk : keep p.1 = true := by simpa using (List.mem_filter.mp hp).2
  simp only [bne_iff_ne, ne_eq]
  rintro rfl
  simp [h] at hk

theorem Memory.lookup_cells_below (bs : List Byte) (a x : Nat) (h : x < a) :
    (Memory.cells a bs).lookup x = none := by
  induction bs generalizing a with
  | nil => rfl
  | cons b bs ih =>
    have hne : (x == a) = false := by simp; omega
    unfold Memory.cells
    split
    · exact ih (a + 1) (by omega)
    · simp [List.lookup_cons, hne, ih (a + 1) (by omega)]

theorem Memory.lookup_cells_above (bs : List Byte) (a x : Nat) (h : a + bs.length ≤ x) :
    (Memory.cells a bs).lookup x = none := by
  induction bs generalizing a with
  | nil => rfl
  | cons b bs ih =>
    simp only [List.length_cons] at h
    have hne : (x == a) = false := by simp; omega
    unfold Memory.cells
    split
    · exact ih (a + 1) (by omega)
    · simp [List.lookup_cons, hne, ih (a + 1) (by omega)]

theorem Memory.read_cells (bs : List Byte) (a k : Nat) (h : k < bs.length) :
    Memory.read (Memory.cells a bs) (a + k) = bs[k] := by
  induction bs generalizing a k with
  | nil => simp at h
  | cons b bs ih =>
    cases k with
    | zero =>
      unfold Memory.cells Memory.read
      split
      · rename_i hb
        rw [Memory.lookup_cells_below _ _ _ (by omega)]
        simp [hb]
      · simp
    | succ k =>
      have hne : (a + (k + 1) == a) = false := by simp
      have := ih (a + 1) k (by simpa using h)
      rw [show a + 1 + k = a + (k + 1) by omega] at this
      unfold Memory.cells
      split
      · simpa using this
      · unfold Memory.read at this ⊢
        simpa [List.lookup_cons, hne] using this

/-! ### Reads after writes (R65, R66) -/

theorem Memory.read_write_inside (m : Memory) (a : Nat) (bs : List Byte) (k : Nat)
    (h : k < bs.length) : (m.write a bs).read (a + k) = bs[k] := by
  have h1 : (m.filter fun c => decide (c.1 < a)).lookup (a + k) = none :=
    Memory.lookup_filter_of_drop m (fun x => decide (x < a)) _ (by simp)
  have h2 : (m.filter fun c => decide (a + bs.length ≤ c.1)).lookup (a + k) = none :=
    Memory.lookup_filter_of_drop m (fun x => decide (a + bs.length ≤ x)) _ (by simp; omega)
  have h3 := Memory.read_cells bs a k h
  unfold Memory.read at h3 ⊢
  unfold Memory.write
  rw [List.lookup_append, List.lookup_append, h1, h2]
  simpa using h3

theorem Memory.read_write_outside (m : Memory) (a : Nat) (bs : List Byte) (x : Nat)
    (h : x < a ∨ a + bs.length ≤ x) : (m.write a bs).read x = m.read x := by
  unfold Memory.read Memory.write
  rw [List.lookup_append, List.lookup_append]
  rcases h with h | h
  · rw [Memory.lookup_filter_of_keep m (fun y => decide (y < a)) x (by simpa using h),
      Memory.lookup_cells_below bs a x h,
      Memory.lookup_filter_of_drop m (fun y => decide (a + bs.length ≤ y)) x (by simp; omega)]
    simp
  · rw [Memory.lookup_filter_of_drop m (fun y => decide (y < a)) x (by simp; omega),
      Memory.lookup_cells_above bs a x h,
      Memory.lookup_filter_of_keep m (fun y => decide (a + bs.length ≤ y)) x (by simpa using h)]
    simp

theorem Memory.read_write (m : Memory) (a : Nat) (bs : List Byte) (x : Nat) :
    (m.write a bs).read x =
      if h : a ≤ x ∧ x < a + bs.length then bs[x - a]'(by omega) else m.read x := by
  split
  · rename_i h
    have := Memory.read_write_inside m a bs (x - a) (by omega)
    rwa [show a + (x - a) = x by omega] at this
  · exact Memory.read_write_outside m a bs x (by omega)

/-- A little-endian read depends on its own bytes alone. -/
theorem Memory.readLE_congr (m m' : Memory) (a n : Nat)
    (h : ∀ k, k < n → m.read (a + k) = m'.read (a + k)) : m.readLE a n = m'.readLE a n := by
  induction n generalizing a with
  | zero => rfl
  | succ n ih =>
    have h0 := h 0 (by omega)
    simp only [Nat.add_zero] at h0
    simp only [Memory.readLE, h0]
    rw [ih (a + 1) fun k hk => by
      have := h (k + 1) (by omega)
      rwa [show a + (k + 1) = a + 1 + k by omega] at this]

theorem Memory.readLE_lt (m : Memory) (a n : Nat) : m.readLE a n < 256 ^ n := by
  induction n generalizing a with
  | zero => simp [Memory.readLE]
  | succ n ih =>
    have h1 := ih (a + 1)
    have h2 := (m.read a).isLt
    simp only [Memory.readLE, Nat.pow_succ]
    omega

@[simp] theorem Memory.readLE_one (m : Memory) (a : Nat) : m.readLE a 1 = (m.read a).toNat := by
  simp [Memory.readLE]

theorem Memory.readLE_two (m : Memory) (a : Nat) :
    m.readLE a 2 = (m.read a).toNat + 256 * (m.read (a + 1)).toNat := by
  simp [Memory.readLE]

theorem Memory.readLE_four (m : Memory) (a : Nat) :
    m.readLE a 4 = (m.read a).toNat + 256 * (m.read (a + 1)).toNat
      + 65536 * (m.read (a + 2)).toNat + 16777216 * (m.read (a + 3)).toNat := by
  have e2 : a + 1 + 1 = a + 2 := by omega
  have e3 : a + 2 + 1 = a + 3 := by omega
  simp only [Memory.readLE, Nat.mul_zero, Nat.add_zero, e2, e3]
  omega

/-! ### The canonical form -/

theorem Memory.wf_cons (c : Host.Cell) (m : Memory) :
    Memory.wf (c :: m) = true ↔
      c.2 ≠ Memory.unlisted ∧ (∀ d ∈ m, c.1 < d.1) ∧ Memory.wf m = true := by
  simp [Memory.wf, List.all_eq_true, and_assoc]

theorem Memory.wf_append (m n : Memory) (hm : m.wf = true) (hn : n.wf = true)
    (h : ∀ c ∈ m, ∀ d ∈ n, c.1 < d.1) : Memory.wf (m ++ n) = true := by
  induction m with
  | nil => simpa using hn
  | cons c m ih =>
    obtain ⟨h1, h2, h3⟩ := (Memory.wf_cons c m).mp hm
    rw [List.cons_append, Memory.wf_cons]
    refine ⟨h1, ?_, ih h3 fun c' hc' => h c' (by simp [hc'])⟩
    intro d hd
    rcases List.mem_append.mp hd with hd | hd
    · exact h2 d hd
    · exact h c (by simp) d hd

theorem Memory.wf_filter (m : Memory) (p : Host.Cell → Bool) (hm : m.wf = true) :
    Memory.wf (m.filter p) = true := by
  induction m with
  | nil => rfl
  | cons c m ih =>
    obtain ⟨h1, h2, h3⟩ := (Memory.wf_cons c m).mp hm
    rw [List.filter_cons]
    split
    · rw [Memory.wf_cons]
      exact ⟨h1, fun d hd => h2 d (List.mem_of_mem_filter hd), ih h3⟩
    · exact ih h3

theorem Memory.mem_cells (bs : List Byte) (a : Nat) (c : Host.Cell) (h : c ∈ Memory.cells a bs) :
    a ≤ c.1 ∧ c.1 < a + bs.length := by
  induction bs generalizing a with
  | nil => simp [Memory.cells] at h
  | cons b bs ih =>
    unfold Memory.cells at h
    simp only [List.length_cons]
    split at h
    · have := ih (a + 1) h
      omega
    · rcases List.mem_cons.mp h with rfl | h
      · simp
      · have := ih (a + 1) h
        omega

theorem Memory.wf_cells (bs : List Byte) (a : Nat) : Memory.wf (Memory.cells a bs) = true := by
  induction bs generalizing a with
  | nil => rfl
  | cons b bs ih =>
    unfold Memory.cells
    split
    · exact ih (a + 1)
    · rename_i hb
      rw [Memory.wf_cons]
      refine ⟨hb, fun d hd => ?_, ih (a + 1)⟩
      have := Memory.mem_cells bs (a + 1) d hd
      simp only
      omega

theorem Memory.wf_write (m : Memory) (a : Nat) (bs : List Byte) (hm : m.wf = true) :
    (m.write a bs).wf = true := by
  unfold Memory.write
  refine Memory.wf_append _ _ (Memory.wf_filter m _ hm)
    (Memory.wf_append _ _ (Memory.wf_cells bs a) (Memory.wf_filter m _ hm) ?_) ?_
  · intro c hc d hd
    have h1 := Memory.mem_cells bs a c hc
    have h2 := (List.mem_filter.mp hd).2
    simp only [decide_eq_true_eq] at h2
    omega
  · intro c hc d hd
    have h1 := (List.mem_filter.mp hc).2
    simp only [decide_eq_true_eq] at h1
    rcases List.mem_append.mp hd with hd | hd
    · have h2 := Memory.mem_cells bs a d hd
      omega
    · have h2 := (List.mem_filter.mp hd).2
      simp only [decide_eq_true_eq] at h2
      omega

theorem Memory.below_write (m : Memory) (a size : Nat) (bs : List Byte)
    (hm : m.below size = true) (h : bs = [] ∨ a + bs.length ≤ size) :
    (m.write a bs).below size = true := by
  simp only [Memory.below, List.all_eq_true, decide_eq_true_eq] at hm ⊢
  intro c hc
  unfold Memory.write at hc
  rcases List.mem_append.mp hc with hc | hc
  · exact hm c (List.mem_of_mem_filter hc)
  · rcases List.mem_append.mp hc with hc | hc
    · have h1 := Memory.mem_cells bs a c hc
      rcases h with rfl | h
      · simp at h1
        omega
      · omega
    · exact hm c (List.mem_of_mem_filter hc)

/-- In canonical form a write of no bytes changes nothing. -/
theorem Memory.write_nil (m : Memory) (a : Nat) (hm : m.wf = true) : m.write a [] = m := by
  induction m with
  | nil => rfl
  | cons c m ih =>
    obtain ⟨h1, h2, h3⟩ := (Memory.wf_cons c m).mp hm
    have ih := ih h3
    unfold Memory.write at ih ⊢
    by_cases h : c.1 < a
    · have h' : ¬ a ≤ c.1 := by omega
      simp only [Memory.cells, List.nil_append, List.length_nil, Nat.add_zero] at ih ⊢
      simp only [List.filter_cons, h, h', decide_true, decide_false, if_true, List.cons_append]
      simpa using ih
    · have h' : a ≤ c.1 := by omega
      have hnone : m.filter (fun d => decide (d.1 < a)) = [] := by
        rw [List.filter_eq_nil_iff]
        intro d hd
        have := h2 d hd
        simp
        omega
      simp only [Memory.cells, List.nil_append, List.length_nil, Nat.add_zero, hnone] at ih ⊢
      simp only [List.filter_cons, h, h', decide_true, decide_false, if_true, hnone]
      simpa using ih

/-- Two canonical memories that read alike are equal data. -/
theorem Memory.eq_of_read_eq (m n : Memory) (hm : m.wf = true) (hn : n.wf = true)
    (h : ∀ x, m.read x = n.read x) : m = n := by
  have low : ∀ (m : Memory) (x : Nat), (∀ d ∈ m, x < d.1) → m.read x = Memory.unlisted := by
    intro m x hx
    have : m.lookup x = none := by
      rw [List.lookup_eq_none_iff]
      intro p hp
      have := hx p hp
      simp
      omega
    simp [Memory.read, this]
  have head : ∀ (c : Host.Cell) (m : Memory), Memory.read (c :: m) c.1 = c.2 := by
    intro c m
    simp [Memory.read, Memory.lookup_cell]
  have tail : ∀ (c : Host.Cell) (m : Memory) (x : Nat), x ≠ c.1 →
      Memory.read (c :: m) x = Memory.read m x := by
    intro c m x hx
    simp [Memory.read, Memory.lookup_cell, hx]
  induction m generalizing n with
  | nil =>
    cases n with
    | nil => rfl
    | cons d n =>
      obtain ⟨h1, _, _⟩ := (Memory.wf_cons d n).mp hn
      exact absurd ((head d n).symm.trans ((h d.1).symm.trans (low [] d.1 (by simp)))) h1
  | cons c m ih =>
    obtain ⟨c1, c2, c3⟩ := (Memory.wf_cons c m).mp hm
    cases n with
    | nil => exact absurd ((head c m).symm.trans ((h c.1).trans (low [] c.1 (by simp)))) c1
    | cons d n =>
      obtain ⟨d1, d2, d3⟩ := (Memory.wf_cons d n).mp hn
      have hkey : c.1 = d.1 := by
        rcases Nat.lt_trichotomy c.1 d.1 with hlt | heq | hlt
        · have : Memory.read (d :: n) c.1 = Memory.unlisted := low _ _ (by
            intro e he
            rcases List.mem_cons.mp he with rfl | he
            · exact hlt
            · have := d2 e he
              omega)
          exact absurd ((head c m).symm.trans ((h c.1).trans this)) c1
        · exact heq
        · have : Memory.read (c :: m) d.1 = Memory.unlisted := low _ _ (by
            intro e he
            rcases List.mem_cons.mp he with rfl | he
            · exact hlt
            · have := c2 e he
              omega)
          exact absurd ((head d n).symm.trans ((h d.1).symm.trans this)) d1
      have hval : c.2 = d.2 := by
        have := h c.1
        rw [head c m] at this
        rw [this, hkey, head d n]
      have hcd : c = d := Prod.ext hkey hval
      subst hcd
      rw [ih n c3 d3]
      intro x
      by_cases hx : x = c.1
      · subst hx
        rw [low m _ c2, low n _ d2]
      · rw [← tail c m x hx, ← tail c n x hx]
        exact h x

/-! ### Rasters (R140, R149, R226) -/

/-- A concatenation of pieces of one length `n`: the byte at `i * n + j` is byte `j` of piece `i`. -/
theorem flatMap_getElem_of_length {α β : Type} (l : List α) (f : α → List β) (n : Nat)
    (hf : ∀ a ∈ l, (f a).length = n) (i j : Nat) (hi : i < l.length) (hj : j < n) :
    (l.flatMap f)[i * n + j]? = (f l[i])[j]? := by
  induction l generalizing i with
  | nil => simp at hi
  | cons a l ih =>
    rw [List.flatMap_cons]
    have ha : (f a).length = n := hf a (by simp)
    cases i with
    | zero => rw [List.getElem?_append_left (by omega)]; simp
    | succ i =>
      rw [List.getElem?_append_right (by rw [ha, Nat.succ_mul]; omega)]
      have : (i + 1) * n + j - (f a).length = i * n + j := by rw [ha, Nat.succ_mul]; omega
      rw [this, ih (fun b hb => hf b (by simp [hb])) i (by simpa using hi)]
      simp

theorem flatMap_length_of_length {α β : Type} (l : List α) (f : α → List β) (n : Nat)
    (hf : ∀ a ∈ l, (f a).length = n) : (l.flatMap f).length = l.length * n := by
  induction l with
  | nil => simp
  | cons a l ih =>
    rw [List.flatMap_cons, List.length_append, hf a (by simp), ih fun b hb => hf b (by simp [hb])]
    simp [Nat.succ_mul]
    omega

@[simp] theorem rgba_bytes_length (p : Rgba) : p.bytes.length = 4 := rfl

theorem rasterRow_length (w : Nat) (f : Nat → Rgba) :
    ((List.range w).flatMap fun x => (f x).bytes).length = w * 4 := by
  rw [flatMap_length_of_length _ _ 4 (by simp)]
  simp

theorem rasterBytes_length (w h : Nat) (px : Nat → Nat → Rgba) :
    (rasterBytes w h px).length = w * h * 4 := by
  unfold rasterBytes
  rw [flatMap_length_of_length _ _ (w * 4) fun y _ => rasterRow_length w fun x => px x y]
  rw [List.length_range, ← Nat.mul_assoc, Nat.mul_comm h w]

/-- Byte `k` of pixel (x, y) stands at `(y*W + x)*4 + k` (R140). -/
theorem rasterBytes_getElem (w h : Nat) (px : Nat → Nat → Rgba) (x y k : Nat)
    (hx : x < w) (hy : y < h) (hk : k < 4) :
    (rasterBytes w h px)[(y * w + x) * 4 + k]? = (px x y).bytes[k]? := by
  unfold rasterBytes
  have hidx : (y * w + x) * 4 + k = y * (w * 4) + (x * 4 + k) := by
    rw [Nat.add_mul, Nat.mul_assoc]; omega
  rw [hidx, flatMap_getElem_of_length _ _ (w * 4)
    (fun y _ => rasterRow_length w fun x => px x y) y (x * 4 + k) (by simpa using hy) (by omega)]
  simp only [List.getElem_range]
  rw [flatMap_getElem_of_length _ _ 4 (by simp) x k (by simpa using hx) hk]
  simp

theorem raster_index_lt (w h x y k : Nat) (hx : x < w) (hy : y < h) (hk : k < 4) :
    (y * w + x) * 4 + k < w * h * 4 := by
  have h1 : y * w + x < h * w := by
    calc y * w + x < y * w + w := by omega
      _ = (y + 1) * w := by rw [Nat.succ_mul]
      _ ≤ h * w := Nat.mul_le_mul_right w hy
  rw [Nat.mul_comm w h]
  omega

/-- What memory holds after a raster is stored: pixel (x, y) at `dst + (y*W + x)*4`. -/
theorem Memory.read_write_raster (m : Memory) (dst w h : Nat) (px : Nat → Nat → Rgba) (x y k : Nat)
    (hx : x < w) (hy : y < h) (hk : k < 4) :
    (m.write dst (rasterBytes w h px)).read (dst + (y * w + x) * 4 + k) =
      (px x y).bytes[k]'(by simpa using hk) := by
  have hlt : (y * w + x) * 4 + k < (rasterBytes w h px).length := by
    rw [rasterBytes_length]
    exact raster_index_lt w h x y k hx hy hk
  rw [Nat.add_assoc, Memory.read_write_inside m dst _ _ hlt]
  have := rasterBytes_getElem w h px x y k hx hy hk
  rw [List.getElem?_eq_getElem hlt, List.getElem?_eq_getElem (by simpa using hk)] at this
  exact Option.some.inj this

/-- A raster depends only on its pixels. -/
theorem rasterBytes_congr (w h : Nat) (px px' : Nat → Nat → Rgba)
    (hp : ∀ x y, x < w → y < h → px x y = px' x y) : rasterBytes w h px = rasterBytes w h px' := by
  unfold rasterBytes
  refine List.flatMap_congr fun y hy => List.flatMap_congr fun x hx => ?_
  rw [hp x y (by simpa using hx) (by simpa using hy)]

end Sys2Proof.Machine
end

