-- ==== Sys2Proof/Laws/State.lean ====
section
/-! SUPPORT. One lemma per field for every update of the state, so that no proof unfolds a record. -/

namespace Sys2Proof.Machine

/-! ### START (R37) -/

@[simp] theorem start_regs (s : State) :
    (s.start).regs = s.regs := rfl
@[simp] theorem start_status (s : State) :
    (s.start).status = { state := .busy, err := .none } := rfl
@[simp] theorem start_latch (s : State) :
    (s.start).latch = s.regs := rfl
@[simp] theorem start_mem (s : State) :
    (s.start).mem = s.mem := rfl
@[simp] theorem start_params (s : State) :
    (s.start).params = s.params := rfl
@[simp] theorem start_hostQueue (s : State) :
    (s.start).hostQueue = s.hostQueue := rfl
@[simp] theorem start_schedule (s : State) :
    (s.start).schedule = s.schedule := rfl
@[simp] theorem start_trace (s : State) :
    (s.start).trace = s.trace := rfl
@[simp] theorem start_unread (s : State) :
    (s.start).unread = s.regs :: s.unread := rfl
@[simp] theorem start_freeCount (s : State) :
    (s.start).freeCount = s.freeCount := rfl

/-! ### DONE (R37) -/

@[simp] theorem complete_regs (s : State) (raster : List Byte) :
    (s.complete raster).regs = s.regs := rfl
@[simp] theorem complete_status (s : State) (raster : List Byte) :
    (s.complete raster).status = { state := .done, err := .none } := rfl
@[simp] theorem complete_latch (s : State) (raster : List Byte) :
    (s.complete raster).latch = s.latch := rfl
@[simp] theorem complete_mem (s : State) (raster : List Byte) :
    (s.complete raster).mem = s.mem.write s.latch.dstBase.toNat raster := rfl
@[simp] theorem complete_params (s : State) (raster : List Byte) :
    (s.complete raster).params = s.params := rfl
@[simp] theorem complete_hostQueue (s : State) (raster : List Byte) :
    (s.complete raster).hostQueue = s.hostQueue := rfl
@[simp] theorem complete_schedule (s : State) (raster : List Byte) :
    (s.complete raster).schedule = s.schedule := rfl
@[simp] theorem complete_trace (s : State) (raster : List Byte) :
    (s.complete raster).trace = s.trace := rfl
@[simp] theorem complete_unread (s : State) (raster : List Byte) :
    (s.complete raster).unread = s.unread := rfl
@[simp] theorem complete_freeCount (s : State) (raster : List Byte) :
    (s.complete raster).freeCount = s.freeCount := rfl

/-! ### ERROR (R302) -/

@[simp] theorem enterError_regs (s : State) (code : ErrCode) :
    (s.enterError code).regs = s.regs := rfl
@[simp] theorem enterError_status (s : State) (code : ErrCode) :
    (s.enterError code).status = { state := .error, err := code } := rfl
@[simp] theorem enterError_latch (s : State) (code : ErrCode) :
    (s.enterError code).latch = s.latch := rfl
@[simp] theorem enterError_mem (s : State) (code : ErrCode) :
    (s.enterError code).mem = s.mem := rfl
@[simp] theorem enterError_params (s : State) (code : ErrCode) :
    (s.enterError code).params = s.params := rfl
@[simp] theorem enterError_hostQueue (s : State) (code : ErrCode) :
    (s.enterError code).hostQueue = s.hostQueue := rfl
@[simp] theorem enterError_schedule (s : State) (code : ErrCode) :
    (s.enterError code).schedule = s.schedule := rfl
@[simp] theorem enterError_trace (s : State) (code : ErrCode) :
    (s.enterError code).trace = s.trace := rfl
@[simp] theorem enterError_unread (s : State) (code : ErrCode) :
    (s.enterError code).unread = s.unread := rfl
@[simp] theorem enterError_freeCount (s : State) (code : ErrCode) :
    (s.enterError code).freeCount = s.freeCount := rfl

/-! ### A started command word (R25, R32) -/

@[simp] theorem startWord_regs (s : State) (w : Word) :
    (s.startWord w).regs = { s.regs with cmd := w } := rfl
@[simp] theorem startWord_status (s : State) (w : Word) :
    (s.startWord w).status = { state := .busy, err := .none } := rfl
@[simp] theorem startWord_latch (s : State) (w : Word) :
    (s.startWord w).latch = { s.regs with cmd := w } := rfl
@[simp] theorem startWord_mem (s : State) (w : Word) :
    (s.startWord w).mem = s.mem := rfl
@[simp] theorem startWord_params (s : State) (w : Word) :
    (s.startWord w).params = s.params := rfl
@[simp] theorem startWord_hostQueue (s : State) (w : Word) :
    (s.startWord w).hostQueue = s.hostQueue := rfl
@[simp] theorem startWord_schedule (s : State) (w : Word) :
    (s.startWord w).schedule = s.schedule := rfl
@[simp] theorem startWord_trace (s : State) (w : Word) :
    (s.startWord w).trace = s.trace := rfl
@[simp] theorem startWord_unread (s : State) (w : Word) :
    (s.startWord w).unread = { s.regs with cmd := w } :: s.unread := rfl
@[simp] theorem startWord_freeCount (s : State) (w : Word) :
    (s.startWord w).freeCount = s.freeCount := rfl

/-! ### A host register read (R33, R69) -/

@[simp] theorem observeReg_regs (s : State) (addr offset : Nat) :
    (s.observeReg addr offset).regs = s.regs := rfl
@[simp] theorem observeReg_status (s : State) (addr offset : Nat) :
    (s.observeReg addr offset).status = s.status := rfl
@[simp] theorem observeReg_latch (s : State) (addr offset : Nat) :
    (s.observeReg addr offset).latch = s.latch := rfl
@[simp] theorem observeReg_mem (s : State) (addr offset : Nat) :
    (s.observeReg addr offset).mem = s.mem := rfl
@[simp] theorem observeReg_params (s : State) (addr offset : Nat) :
    (s.observeReg addr offset).params = s.params := rfl
@[simp] theorem observeReg_hostQueue (s : State) (addr offset : Nat) :
    (s.observeReg addr offset).hostQueue = s.hostQueue := rfl
@[simp] theorem observeReg_schedule (s : State) (addr offset : Nat) :
    (s.observeReg addr offset).schedule = s.schedule := rfl
@[simp] theorem observeReg_trace (s : State) (addr offset : Nat) :
    (s.observeReg addr offset).trace = .regValue addr (readOffset s offset) :: s.trace := rfl
@[simp] theorem observeReg_unread (s : State) (addr offset : Nat) :
    (s.observeReg addr offset).unread =
      if offset = RegName.status.offset ∧ s.status.state ≠ .busy then [] else s.unread := rfl
@[simp] theorem observeReg_freeCount (s : State) (addr offset : Nat) :
    (s.observeReg addr offset).freeCount = s.freeCount := rfl

/-! ### The reset input (R340, R341) -/

@[simp] theorem resetEvent_regs (s : State) : s.resetEvent.regs = .zero := rfl
@[simp] theorem resetEvent_status (s : State) : s.resetEvent.status = { state := .idle, err := .none } := rfl
@[simp] theorem resetEvent_latch (s : State) : s.resetEvent.latch = .zero := rfl
@[simp] theorem resetEvent_params (s : State) : s.resetEvent.params = s.params := rfl
@[simp] theorem resetEvent_hostQueue (s : State) : s.resetEvent.hostQueue = s.hostQueue := rfl
@[simp] theorem resetEvent_schedule (s : State) : s.resetEvent.schedule = s.schedule := rfl
@[simp] theorem resetEvent_trace (s : State) : s.resetEvent.trace = s.trace := rfl
@[simp] theorem resetEvent_unread (s : State) : s.resetEvent.unread = [] := rfl

theorem resetEvent_mem_of_not_busy (s : State) (h : s.status.state ≠ .busy) :
    s.resetEvent.mem = s.mem := by
  simp [State.resetEvent, h]

theorem resetEvent_freeCount_of_not_busy (s : State) (h : s.status.state ≠ .busy) :
    s.resetEvent.freeCount = s.freeCount := by
  simp [State.resetEvent, h]

/-- The memory after a reset while BUSY: free bytes over the abandoned command's destination. -/
theorem resetEvent_mem_of_busy (s : State) (h : s.status.state = .busy) :
    s.resetEvent.mem =
      if dstFootprint s.params s.latch = 0 then s.mem
      else s.mem.write s.latch.dstBase.toNat
        ((List.range (dstFootprint s.params s.latch)).map fun k =>
          Config.freeByte (s.freeCount + k)) := by
  simp [State.resetEvent, h]

/-! ### Register writes (R35(c), R32)

Only START touches anything but the argument registers. -/

@[simp] theorem writeReg_mem (s : State) (r : RegName) (v : Word) :
    (writeReg s r v).mem = s.mem := by
  cases r <;> simp only [writeReg]
  split <;> rfl

@[simp] theorem writeReg_params (s : State) (r : RegName) (v : Word) :
    (writeReg s r v).params = s.params := by
  cases r <;> simp only [writeReg]
  split <;> rfl

@[simp] theorem writeReg_hostQueue (s : State) (r : RegName) (v : Word) :
    (writeReg s r v).hostQueue = s.hostQueue := by
  cases r <;> simp only [writeReg]
  split <;> rfl

@[simp] theorem writeReg_schedule (s : State) (r : RegName) (v : Word) :
    (writeReg s r v).schedule = s.schedule := by
  cases r <;> simp only [writeReg]
  split <;> rfl

@[simp] theorem writeReg_trace (s : State) (r : RegName) (v : Word) :
    (writeReg s r v).trace = s.trace := by
  cases r <;> simp only [writeReg]
  split <;> rfl

@[simp] theorem writeReg_freeCount (s : State) (r : RegName) (v : Word) :
    (writeReg s r v).freeCount = s.freeCount := by
  cases r <;> simp only [writeReg]
  split <;> rfl

@[simp] theorem writeOffset_mem (s : State) (offset : Nat) (v : Word) :
    (writeOffset s offset v).mem = s.mem := by
  unfold writeOffset
  split <;> simp

@[simp] theorem writeOffset_params (s : State) (offset : Nat) (v : Word) :
    (writeOffset s offset v).params = s.params := by
  unfold writeOffset
  split <;> simp

@[simp] theorem writeOffset_hostQueue (s : State) (offset : Nat) (v : Word) :
    (writeOffset s offset v).hostQueue = s.hostQueue := by
  unfold writeOffset
  split <;> simp

@[simp] theorem writeOffset_schedule (s : State) (offset : Nat) (v : Word) :
    (writeOffset s offset v).schedule = s.schedule := by
  unfold writeOffset
  split <;> simp

@[simp] theorem writeOffset_trace (s : State) (offset : Nat) (v : Word) :
    (writeOffset s offset v).trace = s.trace := by
  unfold writeOffset
  split <;> simp

@[simp] theorem writeOffset_freeCount (s : State) (offset : Nat) (v : Word) :
    (writeOffset s offset v).freeCount = s.freeCount := by
  unfold writeOffset
  split <;> simp

/-- Everything a register write while STATE ≠ BUSY can do: store into the argument registers, or start
a command. -/
theorem writeOffset_cases (s : State) (offset : Nat) (v : Word) :
    (∃ regs, writeOffset s offset v = { s with regs := regs }) ∨
      (offset = RegName.ctrl.offset ∧ v[0] = true ∧ writeOffset s offset v = s.start) := by
  unfold writeOffset
  split
  · rename_i r hr
    cases r
    case ctrl =>
      have ho : offset = RegName.ctrl.offset := by
        unfold regAt at hr
        split at hr <;> simp_all [RegName.offset]
      by_cases hv : v[0] = true
      · exact .inr ⟨ho, hv, by simp [writeReg, hv]⟩
      · exact .inl ⟨s.regs, by simp [writeReg, hv]⟩
    all_goals exact .inl ⟨_, rfl⟩
  · exact .inl ⟨s.regs, rfl⟩

/-- The register at an offset is the one whose offset it is. -/
theorem regAt_offset (r : RegName) : regAt r.offset = some r := by
  cases r <;> rfl

theorem offset_of_regAt (offset : Nat) (r : RegName) (h : regAt offset = some r) :
    offset = r.offset := by
  unfold regAt at h
  split at h <;> simp_all [RegName.offset] <;> subst h <;> rfl

@[simp] theorem readOffset_offset (s : State) (r : RegName) : readOffset s r.offset = readReg s r := by
  simp [readOffset, regAt_offset]

@[simp] theorem writeOffset_offset (s : State) (r : RegName) (v : Word) :
    writeOffset s r.offset v = writeReg s r v := by
  simp [writeOffset, regAt_offset]

/-- A 32-bit access at REG_BASE + offset(REG) is legal and reaches that register (R35(a), R105). -/
@[simp] theorem accessOffset_reg (p : Params) (r : RegName) :
    accessOffset p (p.regBase + r.offset) 32 = some r.offset := by
  have h : r.offset < 64 ∧ r.offset % 4 = 0 := by cases r <;> decide
  unfold accessOffset
  rw [if_pos ⟨rfl, by omega, by omega, by omega⟩]
  simp

/-- A legal access lies at a multiple of 4 inside the window (R35(a)). -/
theorem accessOffset_eq_some (p : Params) (addr bits offset : Nat)
    (h : accessOffset p addr bits = some offset) :
    bits = 32 ∧ addr = p.regBase + offset ∧ offset < 64 ∧ offset % 4 = 0 := by
  unfold accessOffset at h
  split at h
  · rename_i hc
    obtain ⟨h1, h2, h3, h4⟩ := hc
    simp only [Option.some.injEq] at h
    omega
  · simp at h

theorem registersHeld_iff (s : State) :
    s.registersHeld = true ↔ s.status.state = .busy ∨
      (s.params.regWriteDuty = .untilStatusRead ∧ s.unread ≠ []) := by
  simp [State.registersHeld]

theorem registersHeld_eq_false (s : State) :
    s.registersHeld = false ↔ s.status.state ≠ .busy ∧
      (s.params.regWriteDuty = .untilStatusRead → s.unread = []) := by
  simp [State.registersHeld]

/-- The duty about register writes reads STATUS, the parameters and the unread commands alone. -/
theorem registersHeld_congr (s t : State) (hs : s.status = t.status) (hp : s.params = t.params)
    (hu : s.unread = t.unread) : s.registersHeld = t.registersHeld := by
  simp only [State.registersHeld, hs, hp, hu]

theorem mem_guarded (s : State) (a : Args) :
    a ∈ s.guarded ↔ (s.status.state = .busy ∧ a = s.latch) ∨ a ∈ s.unread := by
  unfold State.guarded
  split <;> simp_all

/-- Every 32-bit access at a multiple of 4 inside the window is legal (R35(a)). -/
theorem accessOffset_of_multiple (p : Params) (k : Nat) (h : k < 64) (h4 : k % 4 = 0) :
    accessOffset p (p.regBase + k) 32 = some k := by
  unfold accessOffset
  rw [if_pos ⟨rfl, by omega, by omega, by omega⟩]
  simp

/-- The reserved offsets hold no register (R34). -/
theorem regAt_reserved (k : Nat) (h : 10 ≤ k) (h' : k < 16) : regAt (4 * k) = none := by
  interval_cases k <;> rfl

/-- The instruction of a table word is placed where the engine takes its next command. -/
theorem withFetchWord_schedule (s : State) (nbits w : Nat) :
    (s.withFetchWord nbits w).schedule = .engine :: s.schedule := rfl

theorem withFetchWord_status (s : State) (nbits w : Nat) :
    (s.withFetchWord nbits w).status = { state := .busy, err := .none } := rfl

theorem withFetchWord_latch (s : State) (nbits w : Nat) :
    (s.withFetchWord nbits w).latch =
      { s.regs with cmd := BitVec.ofNat 32 (w % 2 ^ nbits) } := rfl

end Sys2Proof.Machine
end

