-- ==== Sys2Proof/Laws/Command.lean ====
section
/-! SUPPORT. Everything a command can do: one case theorem for `exec`, on which the results, the frames,
the invariant and the progress of the machine rest. -/

namespace Sys2Proof.Machine

/-- The pixel function of an operation: which pixel its raster holds at (x, y). -/
def pixelOf (i : Instr) (s : State) (x y : Nat) : Rgba :=
  let at_ (stride : Nat) := s.latch.srcBase.toNat + (y * s.latch.width.toNat + x) * stride
  let scratch (v : Variant) (bpp : Bpp) :=
    scratchPixel s.mem s.latch.srcBase.toNat (gridOf v bpp s.latch) s.params.hardAlpha x y
  match i with
  | .pvrtc1_2bpp => scratch .pvrtc1 .two
  | .pvrtc1_4bpp => scratch .pvrtc1 .four
  | .pvrtc2_2bpp => scratch .pvrtc2 .two
  | .pvrtc2_4bpp => scratch .pvrtc2 .four
  | .l8 => pixelL8 s.mem (at_ 1)
  | .a8 => pixelA8 s.mem (at_ 1)
  | .r8 => pixelR8 s.mem (at_ 1)
  | .l8a8 => pixelL8A8 s.mem (at_ 2)
  | .r8g8 => pixelR8G8 s.mem (at_ 2)
  | .r5g6b5 => pixelR5G6B5 s.mem (at_ 2)
  | .r5g5b5a1 => pixelR5G5B5A1 s.mem (at_ 2)
  | .r4g4b4a4 => pixelR4G4B4A4 s.mem (at_ 2)
  | .r16 => pixelR16 s.mem (at_ 2)
  | .r8g8b8 => pixelR8G8B8 s.mem (at_ 3)
  | .r8g8b8a8 => pixelR8G8B8A8 s.mem (at_ 4)
  | .b8g8r8a8 => pixelB8G8R8A8 s.mem (at_ 4)
  | .r10g10b10a2 => pixelR10G10B10A2 s.mem (at_ 4)
  | .r16g16 => pixelR16G16 s.mem (at_ 4)
  | .r32 => pixelR32 s.mem (at_ 4)
  | .r16g16b16 => pixelR16G16B16 s.mem (at_ 6)
  | .r16g16b16a16 => pixelR16G16B16A16 s.mem (at_ 8)
  | .r32g32 => pixelR32G32 s.mem (at_ 8)
  | .r32g32b32 => pixelR32G32B32 s.mem (at_ 12)
  | .r32g32b32a32 => pixelR32G32B32A32 s.mem (at_ 16)

/-- The raster an operation stores. -/
def rasterOf (i : Instr) (s : State) : List Byte :=
  rasterBytes s.latch.width.toNat s.latch.height.toNat (pixelOf i s)

theorem rasterOf_length (i : Instr) (s : State) : (rasterOf i s).length = needDst s.latch :=
  rasterBytes_length _ _ _

/-- Every operation is one command run: its own need, its own raster. -/
theorem exec_eq_runCommand (i : Instr) (s : State) :
    exec i s = runCommand (needSrc i) (rasterOf i) s := by
  cases i <;> rfl

/-- Everything `exec` can do: end in ERROR with the code of the first check that fails, or store its
raster and end in DONE. It never faults and is never refused. -/
theorem exec_cases (i : Instr) (s : State) :
    (∃ code, regionError s.params.memSize (needSrc i) s.latch = some code ∧
      exec i s = .next (s.enterError code)) ∨
    (regionError s.params.memSize (needSrc i) s.latch = none ∧
      exec i s = .next (s.complete (rasterOf i s))) := by
  rw [exec_eq_runCommand]
  unfold runCommand
  cases h : regionError s.params.memSize (needSrc i) s.latch with
  | some code => exact .inl ⟨code, rfl, rfl⟩
  | none => exact .inr ⟨rfl, rfl⟩

theorem rangesMeet_eq_false (a m b n : Nat) :
    rangesMeet a m b n = false ↔ (m = 0 ∨ n = 0 ∨ b + n ≤ a ∨ a + m ≤ b) := by
  simp only [rangesMeet, Bool.and_eq_false_iff, decide_eq_false_iff_not, Nat.not_lt,
    Nat.le_zero]
  omega

/-- The region checks pass exactly when the command is accepted. -/
theorem regionError_eq_none (s : State) (need : Args → Nat) :
    regionError s.params.memSize need s.latch = none ↔ s.Accepts (need s.latch) := by
  have hmeet := rangesMeet_eq_false s.latch.srcBase.toNat (need s.latch)
    s.latch.dstBase.toNat (needDst s.latch)
  unfold regionError State.Accepts
  unfold needDst at *
  constructor
  · intro h
    split at h
    · simp at h
    split at h
    · simp at h
    split at h
    · simp at h
    split at h
    · simp at h
    rename_i h1 h2 h3 h4
    have := hmeet.mp (by simpa using h4)
    omega
  · rintro ⟨h1, h2, h3, h4, h5⟩
    have h6 := hmeet.mpr (by omega)
    rw [if_neg (by omega), if_neg (by omega), if_neg (by omega), h6]
    simp

/-- An accepted command completes. -/
theorem exec_of_accepts (i : Instr) (s : State) (h : s.Accepts (needSrc i s.latch)) :
    exec i s = .next (s.complete (rasterOf i s)) := by
  rcases exec_cases i s with ⟨code, hc, _⟩ | ⟨_, h'⟩
  · rw [(regionError_eq_none s (needSrc i)).mpr h] at hc
    simp at hc
  · exact h'

theorem verdict_ok (p : Params) (a : Args) (i : Instr) (h : verdict p a = .ok i) :
    decode a.cmd = .ok i ∧ regionError p.memSize (needSrc i) a = none := by
  unfold verdict at h
  split at h
  · simp at h
  · rename_i j hj
    split at h
    · simp at h
    · rename_i hr
      simp only [Except.ok.injEq] at h
      subst h
      exact ⟨hj, hr⟩

/-- Everything the completion step can do (R37, R302): STATUS takes the verdict, and memory changes only
when the command is accepted. -/
theorem completeCommand_cases (s : State) :
    (∃ code, verdict s.params s.latch = .error code ∧
      completeCommand s = .next (s.enterError code)) ∨
    (∃ i, verdict s.params s.latch = .ok i ∧ decode s.latch.cmd = .ok i ∧
      regionError s.params.memSize (needSrc i) s.latch = none ∧
      completeCommand s = .next (s.complete (rasterOf i s))) := by
  unfold completeCommand verdict
  cases hd : decode s.latch.cmd with
  | error e => exact .inl ⟨_, rfl, rfl⟩
  | ok i =>
    rcases exec_cases i s with ⟨code, hc, he⟩ | ⟨hc, he⟩
    · exact .inl ⟨code, by simp [hc], by simpa using he⟩
    · exact .inr ⟨i, by simp [hc], rfl, hc, by simpa using he⟩

/-- The completed raster lies inside the data memory (R67). -/
theorem complete_inside (i : Instr) (s : State)
    (h : regionError s.params.memSize (needSrc i) s.latch = none) :
    rasterOf i s = [] ∨ s.latch.dstBase.toNat + (rasterOf i s).length ≤ s.params.memSize := by
  obtain ⟨_, h2, h3, _⟩ := (regionError_eq_none s (needSrc i)).mp h
  rw [rasterOf_length]
  unfold needDst
  right
  omega

/-- What a completed command leaves in memory, in the terms of claims. -/
theorem holdsRaster_complete (s : State) (px : Nat → Nat → Rgba) :
    HoldsRaster
      (s.mem.write s.latch.dstBase.toNat
        (rasterBytes s.latch.width.toNat s.latch.height.toNat px))
      s.latch.dstBase.toNat s.latch.width.toNat s.latch.height.toNat px := by
  intro x y hx hy
  refine ⟨?_, ?_, ?_, ?_⟩
  · exact Memory.read_write_raster _ _ _ _ _ x y 0 hx hy (by omega)
  · exact Memory.read_write_raster _ _ _ _ _ x y 1 hx hy (by omega)
  · exact Memory.read_write_raster _ _ _ _ _ x y 2 hx hy (by omega)
  · exact Memory.read_write_raster _ _ _ _ _ x y 3 hx hy (by omega)

theorem sameOutside_write_raster (m : Memory) (dst w h : Nat) (px : Nat → Nat → Rgba) :
    SameOutside m (m.write dst (rasterBytes w h px)) dst (w * h * 4) := by
  intro addr ha
  exact Memory.read_write_outside _ _ _ _ (by rw [rasterBytes_length]; exact ha)

/-- Two rasters in the same memory are the same where the pixels are. -/
theorem HoldsRaster.congr {m : Memory} {dst w h : Nat} {px px' : Nat → Nat → Rgba}
    (hr : HoldsRaster m dst w h px) (hp : ∀ x y, x < w → y < h → px x y = px' x y) :
    HoldsRaster m dst w h px' := by
  intro x y hx hy
  have := hr x y hx hy
  rwa [hp x y hx hy] at this

/-- An accepted command of operation `i` completes with its own pixels. -/
theorem completes_of_accepts (i : Instr) (s : State) (h : s.Accepts (needSrc i s.latch)) :
    Completes i s (pixelOf i s) :=
  ⟨_, exec_of_accepts i s h, holdsRaster_complete s _, sameOutside_write_raster _ _ _ _ _⟩

end Sys2Proof.Machine
end

