-- ==== Sys2Proof/Laws/Pvrtc.lean ====
section
/-! SUPPORT. Laws of the PVRTC datapath: the toroidal index, the quadrant map and its inverse, the
twiddle, the source length and the ranges of every intermediate value. -/

namespace Sys2Proof.Machine

/-! ### The toroidal index (R205) -/

theorem wrap_lt (i : Int) (n : Nat) (h : 0 < n) : wrap i n < n := by
  unfold wrap
  have h1 := Int.emod_nonneg (i + n) (show (n : Int) ≠ 0 by omega)
  have h2 := Int.emod_lt_of_pos (i + n) (show (0 : Int) < n by omega)
  omega

theorem wrap_of_mem (i : Int) (n : Nat) (h0 : 0 ≤ i) (h1 : i < n) : wrap i n = i.toNat := by
  unfold wrap
  rw [Int.add_emod_right, Int.emod_eq_of_lt h0 h1]

theorem wrap_natCast (k n : Nat) (h : k < n) : wrap (k : Int) n = k := by
  rw [wrap_of_mem _ _ (by omega) (by omega)]
  simp

theorem wrap_neg_one (n : Nat) (h : 0 < n) : wrap (-1) n = n - 1 := by
  unfold wrap
  rw [Int.emod_eq_of_lt (by omega) (by omega)]
  omega

theorem wrap_self (n : Nat) : wrap (n : Int) n = 0 := by
  unfold wrap
  rw [Int.add_emod_right, Int.emod_self]
  rfl

/-! ### The quadrant map (R224) -/

/-- The place where a tile coordinate lands lies in the covered part of the axis. -/
theorem scratchCoord_lt (half n : Nat) (a : Int) (c : Nat) (hn : 0 < n) (hc : c < 2 * half) :
    scratchCoord (2 * half) n a c < n * (2 * half) := by
  have key : ∀ w d, w < n → d < 2 * half → w * (2 * half) + d < n * (2 * half) := by
    intro w d hw hd
    calc w * (2 * half) + d < w * (2 * half) + 2 * half := by omega
      _ = (w + 1) * (2 * half) := by rw [Nat.add_mul, Nat.one_mul]
      _ ≤ n * (2 * half) := Nat.mul_le_mul_right _ hw
  have hh : 2 * half / 2 = half := by omega
  unfold scratchCoord
  rw [hh]
  split
  · have := key (wrap a n) (c + half) (wrap_lt a n hn) (by omega)
    omega
  · have := key (wrap (a + 1) n) (c - half) (wrap_lt (a + 1) n hn) (by omega)
    omega

/-- `tileCoord` undoes the quadrant map: one tile coordinate lands at each covered place (R224). -/
theorem tileCoord_scratchCoord (half n : Nat) (a : Int) (c : Nat) (hh : 0 < half) (hn : 0 < n)
    (ha : -1 ≤ a) (ha' : a ≤ (n : Int) - 2) (hc : c < 2 * half) :
    tileCoord (2 * half) n (scratchCoord (2 * half) n a c) = (a, c) := by
  have h2 : 2 * half / 2 = half := by omega
  have divmod : ∀ w d, d < 2 * half →
      (w * (2 * half) + d) / (2 * half) = w ∧ (w * (2 * half) + d) % (2 * half) = d := by
    intro w d hd
    constructor
    · rw [Nat.mul_comm w, Nat.mul_add_div (by omega), Nat.div_eq_of_lt hd]
      omega
    · rw [Nat.mul_comm w, Nat.mul_add_mod, Nat.mod_eq_of_lt hd]
  unfold scratchCoord
  rw [h2]
  by_cases hlow : c < half
  · rw [if_pos hlow, Nat.add_assoc]
    obtain ⟨hd, hm⟩ := divmod (wrap a n) (c + half) (by omega)
    unfold tileCoord
    rw [h2, hd, hm, if_neg (by omega)]
    have hw : (if wrap a n + 1 = n then (-1 : Int) else (wrap a n : Nat)) = a := by
      by_cases h0 : a = -1
      · subst h0
        rw [wrap_neg_one n hn, if_pos (by omega)]
      · rw [wrap_of_mem a n (by omega) (by omega), if_neg (by omega)]
        omega
    rw [hw]
    congr 1
    omega
  · rw [if_neg hlow, Nat.add_sub_assoc (by omega)]
    obtain ⟨hd, hm⟩ := divmod (wrap (a + 1) n) (c - half) (by omega)
    unfold tileCoord
    rw [h2, hd, hm, if_pos (by omega), wrap_of_mem (a + 1) n (by omega) (by omega)]
    congr 1
    · omega
    · omega

/-- Every covered place of an axis is where its tile coordinate lands, and that tile coordinate is one
of R205's. -/
theorem scratchCoord_tileCoord (half n x : Nat) (hh : 0 < half) (hx : x < n * (2 * half)) :
    -1 ≤ (tileCoord (2 * half) n x).1 ∧ (tileCoord (2 * half) n x).1 ≤ (n : Int) - 2 ∧
      (tileCoord (2 * half) n x).2 < 2 * half ∧
      scratchCoord (2 * half) n (tileCoord (2 * half) n x).1 (tileCoord (2 * half) n x).2 = x := by
  have h2 : 2 * half / 2 = half := by omega
  have hk : x / (2 * half) < n := Nat.div_lt_of_lt_mul (by rwa [Nat.mul_comm])
  have hl : x % (2 * half) < 2 * half := Nat.mod_lt _ (by omega)
  have hx' : x / (2 * half) * (2 * half) + x % (2 * half) = x := Nat.div_add_mod' x (2 * half)
  generalize hkd : x / (2 * half) = k at hk hx'
  generalize hld : x % (2 * half) = l at hl hx'
  unfold tileCoord scratchCoord
  rw [h2, hkd, hld]
  by_cases hlow : l < half
  · simp only [if_pos hlow]
    refine ⟨by omega, by omega, by omega, ?_⟩
    rw [if_neg (by omega), show ((k : Nat) : Int) - 1 + 1 = (k : Int) by omega, wrap_natCast k n hk]
    omega
  · simp only [if_neg hlow]
    by_cases hlast : k + 1 = n
    · simp only [if_pos hlast]
      refine ⟨by omega, by omega, by omega, ?_⟩
      rw [if_pos (by omega), wrap_neg_one n (by omega)]
      have : n - 1 = k := by omega
      rw [this]
      omega
    · simp only [if_neg hlast]
      refine ⟨by omega, by omega, by omega, ?_⟩
      rw [if_pos (by omega), wrap_natCast k n hk]
      omega

theorem wordWidth_eq (bpp : Bpp) : ∃ half, 0 < half ∧ wordWidth bpp = 2 * half := by
  cases bpp
  · exact ⟨4, by decide, rfl⟩
  · exact ⟨2, by decide, rfl⟩

/-- A command's grid has at least two words on each axis (R201). -/
theorem gridOf_two_le (v : Variant) (bpp : Bpp) (a : Args) :
    2 ≤ (gridOf v bpp a).nx ∧ 2 ≤ (gridOf v bpp a).ny := by
  refine ⟨?_, ?_⟩
  · have h : floorWidth bpp = 2 * wordWidth bpp := by cases bpp <;> rfl
    have hw : 0 < wordWidth bpp := by cases bpp <;> decide
    simp only [gridOf]
    rw [Nat.le_div_iff_mul_le hw]
    omega
  · simp only [gridOf]
    omega

/-- The scratch raster holds, where a tile pixel lands, that tile pixel (R224). -/
theorem scratchPixel_at (m : Memory) (src : Nat) (g : Grid) (mode : HardAlphaMode)
    (a b : Int) (c r : Nat) (hnx : 0 < g.nx) (hny : 0 < g.ny)
    (ha : -1 ≤ a) (ha' : a ≤ (g.nx : Int) - 2) (hb : -1 ≤ b) (hb' : b ≤ (g.ny : Int) - 2)
    (hc : c < wordWidth g.bpp) (hr : r < 4) :
    scratchPixel m src g mode (scratchCoord (wordWidth g.bpp) g.nx a c) (scratchCoord 4 g.ny b r) =
      tilePixel g.variant g.bpp mode (tileAt m src g a b) c r := by
  obtain ⟨half, hh, hw⟩ := wordWidth_eq g.bpp
  rw [hw] at hc
  have hx := scratchCoord_lt half g.nx a c hnx hc
  have hy := scratchCoord_lt 2 g.ny b r hny (by omega)
  have ex := tileCoord_scratchCoord half g.nx a c hh hnx ha ha' hc
  have ey := tileCoord_scratchCoord 2 g.ny b r (by omega) hny hb hb' (by omega)
  have hw4 : (4 : Nat) = 2 * 2 := rfl
  unfold scratchPixel
  rw [hw, if_pos ⟨hx, by simpa using hy⟩]
  simp only [ex]
  rw [show tileCoord 4 g.ny (scratchCoord 4 g.ny b r) = (b, r) from ey]

theorem scratchPixel_uncovered (m : Memory) (src : Nat) (g : Grid) (mode : HardAlphaMode) (x y : Nat)
    (h : g.nx * wordWidth g.bpp ≤ x ∨ g.ny * 4 ≤ y) : scratchPixel m src g mode x y = Rgba.clear := by
  unfold scratchPixel
  rw [if_neg (by omega)]

/-! ### The twiddle (R203) and the source length (R228) -/

/-- The loop of R203 from round `k` on: it runs until `2^sc` reaches `minD`, and sets bit `2i` to bit `i`
of `x` and bit `2i + 1` to bit `i` of `y` for every round `i` it runs. -/
theorem twiddleLoop_spec (minD x y fuel t k : Nat) (hf : minD ≤ 2 ^ (k + fuel)) :
    (twiddleLoop minD x y fuel t (2 ^ k) (2 ^ (2 * k)) k).2 = max k (Nat.clog 2 minD) ∧
    ∀ j, (twiddleLoop minD x y fuel t (2 ^ k) (2 ^ (2 * k)) k).1.testBit j =
      (t.testBit j || (decide (2 * k ≤ j ∧ j < 2 * max k (Nat.clog 2 minD)) &&
        (if j % 2 = 0 then x.testBit (j / 2) else y.testBit (j / 2)))) := by
  induction fuel generalizing t k with
  | zero =>
    have hc : Nat.clog 2 minD ≤ k := Nat.clog_le_of_le_pow (by simpa using hf)
    rw [Nat.max_eq_left hc]
    refine ⟨rfl, fun j => ?_⟩
    have : decide (2 * k ≤ j ∧ j < 2 * k) = false := by
      rw [decide_eq_false_iff_not]
      omega
    rw [this]
    simp [twiddleLoop]
  | succ fuel ih =>
    unfold twiddleLoop
    by_cases hs : 2 ^ k < minD
    · have hc : k < Nat.clog 2 minD := (Nat.lt_clog_iff_pow_lt (by omega)).mpr hs
      have hmax : max (k + 1) (Nat.clog 2 minD) = max k (Nat.clog 2 minD) := by omega
      have e1 : (2 ^ k) <<< 1 = 2 ^ (k + 1) := by rw [Nat.shiftLeft_eq, ← Nat.pow_add]
      have e2 : (2 ^ (2 * k)) <<< 2 = 2 ^ (2 * (k + 1)) := by
        rw [Nat.shiftLeft_eq, ← Nat.pow_add]
        rfl
      have e3 : (2 ^ (2 * k)) <<< 1 = 2 ^ (2 * k + 1) := by rw [Nat.shiftLeft_eq, ← Nat.pow_add]
      have ebit : ∀ z : Nat, (z &&& 2 ^ k ≠ 0) ↔ z.testBit k = true := by
        intro z
        rw [Nat.and_two_pow]
        cases z.testBit k <;> simp
      simp only [hs, if_true, e1, e2, e3]
      obtain ⟨i1, i2⟩ := ih
        (if y &&& 2 ^ k ≠ 0 then
          (if x &&& 2 ^ k ≠ 0 then t ||| 2 ^ (2 * k) else t) ||| 2 ^ (2 * k + 1)
        else if x &&& 2 ^ k ≠ 0 then t ||| 2 ^ (2 * k) else t)
        (k + 1) (by rw [show k + 1 + fuel = k + (fuel + 1) by omega]; exact hf)
      refine ⟨by rw [i1, hmax], fun j => ?_⟩
      rw [i2 j, hmax]
      have hy := ebit y
      have hx := ebit x
      have hK : k < max k (Nat.clog 2 minD) := by omega
      generalize max k (Nat.clog 2 minD) = K at hK
      have bitOf : ∀ (u : Nat) (p : Prop) [Decidable p] (n : Nat),
          (if p then u ||| 2 ^ n else u).testBit j = (u.testBit j || (decide p && decide (n = j))) := by
        intro u p _ n
        split <;> simp_all [Nat.testBit_or, Nat.testBit_two_pow]
      rw [bitOf, bitOf]
      simp only [hx, hy, Bool.decide_eq_true]
      by_cases h0 : j = 2 * k
      · subst h0
        have d1 : decide (2 * (k + 1) ≤ 2 * k ∧ 2 * k < 2 * K) = false := by
          rw [decide_eq_false_iff_not]
          omega
        have d2 : decide (2 * k ≤ 2 * k ∧ 2 * k < 2 * K) = true := by
          rw [decide_eq_true_eq]
          omega
        have d3 : 2 * k % 2 = 0 := by omega
        have d4 : 2 * k / 2 = k := by omega
        rw [d1, d2, if_pos d3, d4]
        simp
      · by_cases h1 : j = 2 * k + 1
        · subst h1
          have d1 : decide (2 * (k + 1) ≤ 2 * k + 1 ∧ 2 * k + 1 < 2 * K) = false := by
            rw [decide_eq_false_iff_not]
            omega
          have d2 : decide (2 * k ≤ 2 * k + 1 ∧ 2 * k + 1 < 2 * K) = true := by
            rw [decide_eq_true_eq]
            omega
          have d3 : ¬ (2 * k + 1) % 2 = 0 := by omega
          have d4 : (2 * k + 1) / 2 = k := by omega
          rw [d1, d2, if_neg d3, d4]
          simp
        · have d1 : decide (2 * (k + 1) ≤ j ∧ j < 2 * K) = decide (2 * k ≤ j ∧ j < 2 * K) := by
            rw [decide_eq_decide]
            omega
          have d2 : decide (2 * k = j) = false := by simp; omega
          have d3 : decide (2 * k + 1 = j) = false := by simp; omega
          rw [d1, d2, d3]
          simp
    · have hc : Nat.clog 2 minD ≤ k := Nat.clog_le_of_le_pow (by omega)
      rw [Nat.max_eq_left hc]
      simp only [hs, if_false]
      refine ⟨trivial, fun j => ?_⟩
      have : decide (2 * k ≤ j ∧ j < 2 * k) = false := by
        rw [decide_eq_false_iff_not]
        omega
      rw [this]
      simp

theorem le_foldl_max (l : List Nat) (f : Nat → Nat) (init : Nat) :
    init ≤ l.foldl (fun best a => max best (f a)) init ∧
      ∀ a ∈ l, f a ≤ l.foldl (fun best a => max best (f a)) init := by
  induction l generalizing init with
  | nil => simp
  | cons b l ih =>
    obtain ⟨h1, h2⟩ := ih (max init (f b))
    simp only [List.foldl_cons]
    refine ⟨by omega, fun a ha => ?_⟩
    rcases List.mem_cons.mp ha with rfl | ha
    · omega
    · exact h2 a ha

theorem foldl_max_mem (l : List Nat) (f : Nat → Nat) (init : Nat) :
    l.foldl (fun best a => max best (f a)) init = init ∨
      ∃ a ∈ l, f a = l.foldl (fun best a => max best (f a)) init := by
  induction l generalizing init with
  | nil => simp
  | cons b l ih =>
    simp only [List.foldl_cons]
    rcases ih (max init (f b)) with h | ⟨a, ha, h⟩
    · rcases Nat.le_total init (f b) with hb | hb
      · exact .inr ⟨b, by simp, by omega⟩
      · exact .inl (by omega)
    · exact .inr ⟨a, by simp [ha], h⟩

theorem maxTwiddle_step (nx ny : Nat) (l : List Nat) (init : Nat) :
    init ≤ l.foldl (fun best y =>
        (List.range nx).foldl (fun best x => max best (twiddle nx ny x y)) best) init ∧
      ∀ y ∈ l, ∀ x, x < nx → twiddle nx ny x y ≤ l.foldl (fun best y =>
        (List.range nx).foldl (fun best x => max best (twiddle nx ny x y)) best) init := by
  induction l generalizing init with
  | nil => simp
  | cons b l ih =>
    simp only [List.foldl_cons]
    obtain ⟨g1, g2⟩ := le_foldl_max (List.range nx) (fun x => twiddle nx ny x b) init
    obtain ⟨h1, h2⟩ := ih ((List.range nx).foldl (fun best x => max best (twiddle nx ny x b)) init)
    refine ⟨by omega, fun y hy x hx => ?_⟩
    rcases List.mem_cons.mp hy with rfl | hy
    · have := g2 x (by simpa using hx)
      omega
    · exact h2 y hy x hx

/-- No word of the grid has a larger index than `maxTwiddle`. -/
theorem twiddle_le_maxTwiddle (nx ny x y : Nat) (hx : x < nx) (hy : y < ny) :
    twiddle nx ny x y ≤ maxTwiddle nx ny :=
  (maxTwiddle_step nx ny (List.range ny) 0).2 y (by simpa using hy) x hx

/-- `maxTwiddle` is the least bound of the grid's indexes. -/
theorem maxTwiddle_le (nx ny bound : Nat)
    (h : ∀ x y, x < nx → y < ny → twiddle nx ny x y ≤ bound) : maxTwiddle nx ny ≤ bound := by
  have row : ∀ y, y < ny → ∀ init, init ≤ bound →
      (List.range nx).foldl (fun best x => max best (twiddle nx ny x y)) init ≤ bound := by
    intro y hy init hi
    rcases foldl_max_mem (List.range nx) (fun x => twiddle nx ny x y) init with h' | ⟨x, hx, h'⟩
    · omega
    · rw [← h']
      exact h x y (by simpa using hx) hy
  have all : ∀ (l : List Nat), (∀ y ∈ l, y < ny) → ∀ init, init ≤ bound →
      l.foldl (fun best y =>
        (List.range nx).foldl (fun best x => max best (twiddle nx ny x y)) best) init ≤ bound := by
    intro l
    induction l with
    | nil => intro _ init hi; simpa using hi
    | cons y l ih =>
      intro hl init hi
      exact ih (fun z hz => hl z (by simp [hz])) _ (row y (hl y (by simp)) init hi)
  exact all (List.range ny) (by simp) 0 (by omega)

/-- Every word of a command's grid lies inside the bytes the command needs (R67, R228). -/
theorem wordOffset_inside (v : Variant) (bpp : Bpp) (a : Args) (x y : Nat)
    (hw : a.width.toNat ≠ 0) (hh : a.height.toNat ≠ 0)
    (hx : x < (gridOf v bpp a).nx) (hy : y < (gridOf v bpp a).ny) :
    wordOffset (gridOf v bpp a) x y + 8 ≤ pvrtcNeedSrc v bpp a := by
  unfold pvrtcNeedSrc
  rw [if_neg (by omega)]
  cases v with
  | pvrtc1 =>
    have := twiddle_le_maxTwiddle _ _ x y hx hy
    simp only [wordOffset, gridOf] at this ⊢
    omega
  | pvrtc2 =>
    generalize hg : gridOf .pvrtc2 bpp a = g at hx hy
    have hv : g.variant = .pvrtc2 := by rw [← hg]; rfl
    simp only [wordOffset, hv]
    have h1 : y * g.nx + x + 1 ≤ g.ny * g.nx := by
      calc y * g.nx + x + 1 ≤ y * g.nx + g.nx := by omega
        _ = (y + 1) * g.nx := by rw [Nat.add_mul, Nat.one_mul]
        _ ≤ g.ny * g.nx := Nat.mul_le_mul_right _ hy
    rw [Nat.mul_assoc, Nat.mul_comm g.nx g.ny]
    omega

/-! ### A command reads only its source bytes (R67) -/

/-- A word read depends only on its own eight bytes. -/
theorem readWord_congr (m m' : Memory) (src : Nat) (g : Grid) (x y : Nat)
    (h : ∀ k, k < 8 → m.read (src + (wordOffset g x y + k)) = m'.read (src + (wordOffset g x y + k))) :
    readWord m src g x y = readWord m' src g x y := by
  unfold readWord
  congr 1
  · exact Memory.readLE_congr _ _ _ _ fun k hk => by
      have := h k (by omega)
      rwa [← Nat.add_assoc] at this
  · exact Memory.readLE_congr _ _ _ _ fun k hk => by
      have := h (4 + k) (by omega)
      rwa [← Nat.add_assoc, ← Nat.add_assoc] at this

/-- A tile depends only on the words of the grid. -/
theorem tileAt_congr (m m' : Memory) (src : Nat) (g : Grid) (a b : Int) (hnx : 0 < g.nx)
    (hny : 0 < g.ny)
    (h : ∀ x y, x < g.nx → y < g.ny → readWord m src g x y = readWord m' src g x y) :
    tileAt m src g a b = tileAt m' src g a b := by
  unfold tileAt
  rw [h _ _ (wrap_lt a _ hnx) (wrap_lt b _ hny), h _ _ (wrap_lt (a + 1) _ hnx) (wrap_lt b _ hny),
    h _ _ (wrap_lt a _ hnx) (wrap_lt (b + 1) _ hny),
    h _ _ (wrap_lt (a + 1) _ hnx) (wrap_lt (b + 1) _ hny)]

/-! ### Ranges -/

/-- Every entry of the weight table is one of 0, 3, 5 and 8 (R210). -/
theorem weightTable_le (code : Nat) : weightTable code ≤ 8 := by
  unfold weightTable
  split <;> omega

/-- A weight is in 0..8, but for the sentinel 15 of a PVRTC2 4bpp word with MODFLAG = 1 (R211, R216). -/
theorem weightAt_range (v : Variant) (bpp : Bpp) (t : Tile) (x y : Nat) :
    weightAt v bpp t x y ≤ 8 ∨
      (weightAt v bpp t x y = 15 ∧ v = .pvrtc2 ∧ bpp = .four ∧
        modFlag (t.wordOf .four x y).col = 1) := by
  cases bpp with
  | two =>
    left
    have w : ∀ x y, tableWeight2 t x y ≤ 8 := fun x y => weightTable_le _
    have h0 := w x y
    have h1 := w x (y - 1)
    have h2 := w x (y + 1)
    have h3 := w (x - 1) y
    have h4 := w (x + 1) y
    unfold weightAt
    simp only
    split
    · exact h0
    · split <;> omega
  | four =>
    unfold weightAt weight4
    simp only
    split
    · rename_i h
      exact .inr ⟨rfl, h.1, trivial, h.2.1⟩
    · exact .inl (weightTable_le _)

/-- A blended channel of 8-bit endpoints needs no clamp (R222, R223). -/
theorem blend_unclamped (w a b : Nat) (hw : w ≤ 8) (ha : a ≤ 255) (hb : b ≤ 255) :
    blend w a b = (a * (8 - w) + b * w) / 8 := by
  have h1 : a * (8 - w) ≤ 255 * (8 - w) := Nat.mul_le_mul_right _ ha
  have h2 : b * w ≤ 255 * w := Nat.mul_le_mul_right _ hb
  unfold blend
  omega

theorem blend_le (w a b : Nat) : blend w a b ≤ 255 := by
  unfold blend
  omega

theorem bits_lt (v hi lo : Nat) : bits v hi lo < 2 ^ (hi - lo + 1) :=
  Nat.mod_lt _ (Nat.two_pow_pos _)

/-- The accumulator of channels that are at most `bound` is at most `4 * Ww * bound` (R218). -/
theorem bilinear_le (ww c r p q r' s bound : Nat) (hc : c ≤ ww) (hr : r ≤ 4)
    (hp : p ≤ bound) (hq : q ≤ bound) (hr' : r' ≤ bound) (hs : s ≤ bound) :
    bilinear ww c r p q r' s ≤ 4 * ww * bound := by
  have row : ∀ u v, u ≤ bound → v ≤ bound → (ww - c) * u + c * v ≤ ww * bound := by
    intro u v hu hv
    calc (ww - c) * u + c * v ≤ (ww - c) * bound + c * bound :=
          Nat.add_le_add (Nat.mul_le_mul_left _ hu) (Nat.mul_le_mul_left _ hv)
      _ = ww * bound := by rw [← Nat.add_mul, Nat.sub_add_cancel hc]
  unfold bilinear
  calc (4 - r) * ((ww - c) * p + c * q) + r * ((ww - c) * r' + c * s)
      ≤ (4 - r) * (ww * bound) + r * (ww * bound) :=
        Nat.add_le_add (Nat.mul_le_mul_left _ (row p q hp hq)) (Nat.mul_le_mul_left _ (row r' s hr' hs))
    _ = 4 * ww * bound := by rw [← Nat.add_mul, Nat.sub_add_cancel hr, Nat.mul_assoc]

/-- Four equal channels interpolate to themselves, times `4 * Ww` (R218). -/
theorem bilinear_uniform (ww c r v : Nat) (hc : c ≤ ww) (hr : r ≤ 4) :
    bilinear ww c r v v v v = 4 * ww * v := by
  unfold bilinear
  rw [← Nat.add_mul, Nat.sub_add_cancel hr, ← Nat.add_mul, Nat.sub_add_cancel hc, Nat.mul_assoc]

/-! ### Fields of a word -/

/-- A colour in working precision (41_pvrtc.md section 2): 5 bits for r, g and b, 4 bits for a. -/
def Colour.Working (e : Colour) : Prop := e.r < 32 ∧ e.g < 32 ∧ e.b < 32 ∧ e.a < 16

theorem widen4to5_eq : ∀ v < 16, widen4to5 v = 2 * v + v / 8 := by decide

theorem widen3to5_eq : ∀ v < 8, widen3to5 v = 4 * v + v / 2 := by decide

theorem colourA1_working (col : Nat) : (colourA1 col).Working := by
  have q4 : ∀ v < 16, widen4to5 v < 32 := by decide
  have q3 : ∀ v < 8, widen3to5 v < 32 := by decide
  unfold colourA1
  split
  · exact ⟨bits_lt _ 14 10, bits_lt _ 9 5, q4 _ (bits_lt _ 4 1), by show 15 < 16; decide⟩
  · refine ⟨q4 _ (bits_lt _ 11 8), q4 _ (bits_lt _ 7 4), q3 _ (bits_lt _ 3 1), ?_⟩
    have := bits_lt col 14 12
    simp only [Nat.shiftLeft_eq]
    omega

theorem colourB1_working (col : Nat) : (colourB1 col).Working := by
  have q4 : ∀ v < 16, widen4to5 v < 32 := by decide
  unfold colourB1
  split
  · exact ⟨bits_lt _ 30 26, bits_lt _ 25 21, bits_lt _ 20 16, by show 15 < 16; decide⟩
  · refine ⟨q4 _ (bits_lt _ 27 24), q4 _ (bits_lt _ 23 20), q4 _ (bits_lt _ 19 16), ?_⟩
    have := bits_lt col 30 28
    simp only [Nat.shiftLeft_eq]
    omega

/-- Every endpoint of both variants is in working precision (R206 to R208). -/
theorem colourA_working (v : Variant) (col : Nat) : (colourA v col).Working := by
  cases v <;> exact colourA1_working _

theorem colourB_working (v : Variant) (col : Nat) : (colourB v col).Working := by
  cases v <;> exact colourB1_working _

theorem modFlag_eq (col : Nat) : modFlag col = col % 2 := by
  simp [modFlag, bit, bits]

theorem code4_eq (m x y : Nat) : code4 m x y = m / 4 ^ (4 * y + x) % 4 := by
  unfold code4 bits
  rw [Nat.pow_mul]
  simp

theorem bit_lt (m i : Nat) : bit m i < 2 := by
  have := bits_lt m i i
  simpa [bit] using this

theorem bit_eq_one (m i : Nat) : bit m i = 1 ↔ m.testBit i = true := by
  rw [Nat.testBit_eq_decide_div_mod_eq]
  simp [bit, bits]

/-- `setBit` replaces one bit and keeps the others. -/
theorem setBit_testBit (v i b j : Nat) (hb : b < 2) :
    (setBit v i b).testBit j = if j = i then decide (b = 1) else v.testBit j := by
  have hv : v = (v / 2 ^ (i + 1)) * 2 ^ (i + 1) + bit v i * 2 ^ i + v % 2 ^ i := by
    have h1 : bit v i = v / 2 ^ i % 2 := by simp [bit, bits]
    rw [h1, Nat.pow_succ, ← Nat.div_div_eq_div_mul]
    have h2 := Nat.div_add_mod v (2 ^ i)
    have h3 := Nat.div_add_mod (v / 2 ^ i) 2
    calc v = 2 ^ i * (v / 2 ^ i) + v % 2 ^ i := h2.symm
      _ = 2 ^ i * (2 * (v / 2 ^ i / 2) + v / 2 ^ i % 2) + v % 2 ^ i := by rw [h3]
      _ = _ := by ring
  have e : setBit v i b = 2 ^ i * (2 * (v / 2 ^ (i + 1)) + b) + v % 2 ^ i := by
    unfold setBit
    have : v - bit v i * 2 ^ i = (v / 2 ^ (i + 1)) * 2 ^ (i + 1) + v % 2 ^ i := by omega
    rw [this, Nat.pow_succ]
    ring
  have hlt : v % 2 ^ i < 2 ^ i := Nat.mod_lt _ (Nat.two_pow_pos _)
  rw [e, Nat.testBit_two_pow_mul_add _ hlt]
  split
  · rw [if_neg (by omega), Nat.testBit_mod_two_pow]
    simp
    omega
  · split
    · subst j
      simp
      omega
    · obtain ⟨k, hk⟩ : ∃ k, j - i = k + 1 := ⟨j - i - 1, by omega⟩
      rw [hk, Nat.testBit_succ, show (2 * (v / 2 ^ (i + 1)) + b) / 2 = v / 2 ^ (i + 1) by omega,
        Nat.testBit_div_two_pow]
      congr 1
      omega

/-- The word a tile pixel's combined-grid position lies in is the owner of its quadrant (R216, R224). -/
theorem wordOf_eq_owner (t : Tile) (bpp : Bpp) (c r : Nat) (hc : c < wordWidth bpp) (hr : r < 4) :
    t.wordOf bpp (c + wordWidth bpp / 2) (r + 2) = t.owner bpp c r := by
  cases bpp <;> simp only [wordWidth] at hc ⊢ <;> interval_cases c <;> interval_cases r <;> rfl

end Sys2Proof.Machine
end

