-- ==== Sys2Proof/Laws/Host.lean ====
section
/-! SUPPORT. What a command's output depends on (20_memory.md R67), and the host's duties in terms of
bytes (70_reset_and_hazards.md R344). -/

namespace Sys2Proof.Machine

/-! ### What a raster depends on -/

/-- Byte `k` of pixel (x, y) lies among the `w * h * S` source bytes (R140, R150). -/
theorem pixel_byte_lt (w h x y S k : Nat) (hx : x < w) (hy : y < h) (hk : k < S) :
    (y * w + x) * S + k < w * h * S := by
  have h1 : y * w + x + 1 ≤ w * h := by
    calc y * w + x + 1 ≤ y * w + w := by omega
      _ = (y + 1) * w := by ring
      _ ≤ h * w := Nat.mul_le_mul_right _ hy
      _ = w * h := Nat.mul_comm _ _
  calc (y * w + x) * S + k < (y * w + x) * S + S := by omega
    _ = (y * w + x + 1) * S := by ring
    _ ≤ _ := Nat.mul_le_mul_right _ h1

theorem Memory.readLE_congr_at (m m' : Memory) (a n S : Nat)
    (h : ∀ k, k < S → m.read (a + k) = m'.read (a + k)) (o : Nat) (ho : o + n ≤ S) :
    m.readLE (a + o) n = m'.readLE (a + o) n :=
  Memory.readLE_congr _ _ _ _ fun k hk => by
    have := h (o + k) (by omega)
    rwa [← Nat.add_assoc] at this

theorem scratchPixel_congr (v : Variant) (bpp : Bpp) (s : State) (m' : Memory) (x y : Nat)
    (hx : x < s.latch.width.toNat) (hy : y < s.latch.height.toNat)
    (h : ∀ k, k < pvrtcNeedSrc v bpp s.latch →
      s.mem.read (s.latch.srcBase.toNat + k) = m'.read (s.latch.srcBase.toNat + k)) :
    scratchPixel s.mem s.latch.srcBase.toNat (gridOf v bpp s.latch) s.params.hardAlpha x y =
      scratchPixel m' s.latch.srcBase.toNat (gridOf v bpp s.latch) s.params.hardAlpha x y := by
  unfold scratchPixel
  split
  · simp only
    obtain ⟨g1, g2⟩ := gridOf_two_le v bpp s.latch
    rw [tileAt_congr s.mem m' _ _ _ _ (by omega) (by omega)]
    intro x' y' hx' hy'
    apply readWord_congr
    intro k hk
    have := wordOffset_inside v bpp s.latch x' y' (by omega) (by omega) hx' hy'
    exact h _ (by omega)
  · rfl

/-- Every pixel of an operation depends on the needed source bytes only (R67, R141, R227). -/
theorem pixelOf_congr (i : Instr) (s : State) (m' : Memory) (x y : Nat)
    (hx : x < s.latch.width.toNat) (hy : y < s.latch.height.toNat)
    (h : ∀ k, k < needSrc i s.latch →
      s.mem.read (s.latch.srcBase.toNat + k) = m'.read (s.latch.srcBase.toNat + k)) :
    pixelOf i s x y = pixelOf i { s with mem := m' } x y := by
  have bank : ∀ S, (∀ k, k < bankNeedSrc S s.latch →
      s.mem.read (s.latch.srcBase.toNat + k) = m'.read (s.latch.srcBase.toNat + k)) →
      ∀ k, k < S → s.mem.read (s.latch.srcBase.toNat + (y * s.latch.width.toNat + x) * S + k) =
        m'.read (s.latch.srcBase.toNat + (y * s.latch.width.toNat + x) * S + k) := by
    intro S hS k hk
    have := hS _ (pixel_byte_lt _ _ _ _ _ k hx hy hk)
    simpa [Nat.add_assoc] using this
  cases i
  case pvrtc1_2bpp => exact scratchPixel_congr _ _ s m' x y hx hy h
  case pvrtc1_4bpp => exact scratchPixel_congr _ _ s m' x y hx hy h
  case pvrtc2_2bpp => exact scratchPixel_congr _ _ s m' x y hx hy h
  case pvrtc2_4bpp => exact scratchPixel_congr _ _ s m' x y hx hy h
  all_goals
    have hb := bank _ h
    have hb0 := fun n hn => Memory.readLE_congr_at _ m' _ n _ hb 0 (by omega : 0 + n ≤ _)
    simp only [Nat.add_zero] at hb0
    simp only [pixelOf, pixelL8, pixelA8, pixelR8, pixelL8A8, pixelR8G8, pixelR5G6B5, pixelR5G5B5A1,
      pixelR4G4B4A4, pixelR16, pixelR8G8B8, pixelR8G8B8A8, pixelB8G8R8A8, pixelR10G10B10A2,
      pixelR16G16, pixelR32, pixelR16G16B16, pixelR16G16B16A16, pixelR32G32, pixelR32G32B32,
      pixelR32G32B32A32]
    repeat rw [hb0 _ (by omega)]
    repeat rw [Memory.readLE_congr_at _ m' _ _ _ hb _ (by omega)]

/-- The raster of an operation depends on the needed source bytes only (R67). -/
theorem rasterOf_congr (i : Instr) (s : State) (m' : Memory)
    (h : ∀ k, k < needSrc i s.latch →
      s.mem.read (s.latch.srcBase.toNat + k) = m'.read (s.latch.srcBase.toNat + k)) :
    rasterOf i s = rasterOf i { s with mem := m' } :=
  rasterBytes_congr _ _ _ _ fun x y hx hy => pixelOf_congr i s m' x y hx hy h

/-- Of the state, a raster reads the latch, the memory and the parameters. -/
theorem rasterOf_eq_of_eq (i : Instr) (s t : State) (hl : s.latch = t.latch) (hm : s.mem = t.mem)
    (hp : s.params = t.params) : rasterOf i s = rasterOf i t := by
  unfold rasterOf
  rw [hl]
  apply rasterBytes_congr
  intro x y _ _
  cases i <;> simp only [pixelOf, hl, hm, hp]

/-! ### The host's duties -/

theorem rangesMeet_iff (a m b n : Nat) :
    rangesMeet a m b n = true ↔ ∃ k, (a ≤ k ∧ k < a + m) ∧ (b ≤ k ∧ k < b + n) := by
  have hf := rangesMeet_eq_false a m b n
  constructor
  · intro h
    have : ¬ (m = 0 ∨ n = 0 ∨ b + n ≤ a ∨ a + m ≤ b) := by
      rw [← hf, h]
      simp
    exact ⟨max a b, by omega, by omega⟩
  · rintro ⟨k, h1, h2⟩
    by_contra h
    rw [Bool.not_eq_true] at h
    have := hf.mp h
    omega

theorem footprint_of_ok (p : Params) (a : Args) (i : Instr) (h : verdict p a = .ok i) :
    srcFootprint p a = needSrc i a ∧ dstFootprint p a = needDst a := by
  simp [srcFootprint, dstFootprint, h]

theorem footprint_of_error (p : Params) (a : Args) (code : ErrCode)
    (h : verdict p a = .error code) : srcFootprint p a = 0 ∧ dstFootprint p a = 0 := by
  simp [srcFootprint, dstFootprint, h]

/-- A host access meets the footprint of a command exactly when the command will not end in ERROR and
some byte of the access is one of its source or destination bytes. -/
theorem footprint_meets_iff (p : Params) (a : Args) (addr count : Nat) :
    (rangesMeet addr count a.srcBase.toNat (srcFootprint p a) ||
      rangesMeet addr count a.dstBase.toNat (dstFootprint p a)) = true ↔
      ∃ i k, verdict p a = .ok i ∧ (addr ≤ k ∧ k < addr + count) ∧
        ((a.srcBase.toNat ≤ k ∧ k < a.srcBase.toNat + needSrc i a) ∨
          (a.dstBase.toNat ≤ k ∧ k < a.dstBase.toNat + needDst a)) := by
  rw [Bool.or_eq_true, rangesMeet_iff, rangesMeet_iff]
  cases hv : verdict p a with
  | error code =>
    obtain ⟨e1, e2⟩ := footprint_of_error _ _ _ hv
    rw [e1, e2]
    constructor
    · rintro (⟨k, _, _⟩ | ⟨k, _, _⟩) <;> omega
    · rintro ⟨i, k, h, _⟩
      cases h
  | ok i =>
    obtain ⟨e1, e2⟩ := footprint_of_ok _ _ _ hv
    rw [e1, e2]
    constructor
    · rintro (⟨k, h1, h2⟩ | ⟨k, h1, h2⟩)
      · exact ⟨i, k, rfl, h1, .inl h2⟩
      · exact ⟨i, k, rfl, h1, .inr h2⟩
    · rintro ⟨j, k, hj, h1, h2⟩
      cases hj
      rcases h2 with h2 | h2
      · exact .inl ⟨k, h1, h2⟩
      · exact .inr ⟨k, h1, h2⟩

/-- A host access breaks the duty of R344(b), (c) exactly when it meets the footprint of the running
command or of an unread one. -/
theorem memHazard_iff (s : State) (addr count : Nat) :
    s.memHazard addr count = true ↔
      ∃ a i k, ((s.status.state = .busy ∧ a = s.latch) ∨ a ∈ s.unread) ∧
        verdict s.params a = .ok i ∧ (addr ≤ k ∧ k < addr + count) ∧
        ((a.srcBase.toNat ≤ k ∧ k < a.srcBase.toNat + needSrc i a) ∨
          (a.dstBase.toNat ≤ k ∧ k < a.dstBase.toNat + needDst a)) := by
  unfold State.memHazard
  rw [List.any_eq_true]
  constructor
  · rintro ⟨a, ha, h⟩
    obtain ⟨i, k, h⟩ := (footprint_meets_iff _ _ _ _).mp h
    exact ⟨a, i, k, (mem_guarded s a).mp ha, h⟩
  · rintro ⟨a, i, k, ha, h⟩
    exact ⟨a, (mem_guarded s a).mpr ha, (footprint_meets_iff _ _ _ _).mpr ⟨i, k, h⟩⟩

end Sys2Proof.Machine
end

