-- ==== Sys2Proof/Laws/PerInstr.lean ====
section
/-! SUPPORT. The statement made of every instruction as syntax, one lemma per constructor. -/

namespace Sys2Proof.Laws.EncodedWord

/-- The command word of an instruction holds its OP in bits 7:0 and 0 in bits 31:8 (30_encoding.md R90,
R92), the OP is not one of R93's unassigned values, and the decoder gives the instruction back. -/
def Statement (i : Instr) : Prop :=
  i.wf = true ∧
  (encode i).extractLsb' 0 8 = i.op ∧ (encode i).extractLsb' 8 24 = 0#24 ∧
  (i.op ≤ 0x03#8 ∨ (0x10#8 ≤ i.op ∧ i.op ≤ 0x23#8)) ∧
  decode (encode i) = .ok i

theorem pvrtc1_2bpp : Statement .pvrtc1_2bpp := by
  unfold Statement
  decide

theorem pvrtc1_4bpp : Statement .pvrtc1_4bpp := by
  unfold Statement
  decide

theorem pvrtc2_2bpp : Statement .pvrtc2_2bpp := by
  unfold Statement
  decide

theorem pvrtc2_4bpp : Statement .pvrtc2_4bpp := by
  unfold Statement
  decide

theorem l8 : Statement .l8 := by
  unfold Statement
  decide

theorem a8 : Statement .a8 := by
  unfold Statement
  decide

theorem r8 : Statement .r8 := by
  unfold Statement
  decide

theorem l8a8 : Statement .l8a8 := by
  unfold Statement
  decide

theorem r8g8 : Statement .r8g8 := by
  unfold Statement
  decide

theorem r5g6b5 : Statement .r5g6b5 := by
  unfold Statement
  decide

theorem r5g5b5a1 : Statement .r5g5b5a1 := by
  unfold Statement
  decide

theorem r4g4b4a4 : Statement .r4g4b4a4 := by
  unfold Statement
  decide

theorem r16 : Statement .r16 := by
  unfold Statement
  decide

theorem r8g8b8 : Statement .r8g8b8 := by
  unfold Statement
  decide

theorem r8g8b8a8 : Statement .r8g8b8a8 := by
  unfold Statement
  decide

theorem b8g8r8a8 : Statement .b8g8r8a8 := by
  unfold Statement
  decide

theorem r10g10b10a2 : Statement .r10g10b10a2 := by
  unfold Statement
  decide

theorem r16g16 : Statement .r16g16 := by
  unfold Statement
  decide

theorem r32 : Statement .r32 := by
  unfold Statement
  decide

theorem r16g16b16 : Statement .r16g16b16 := by
  unfold Statement
  decide

theorem r16g16b16a16 : Statement .r16g16b16a16 := by
  unfold Statement
  decide

theorem r32g32 : Statement .r32g32 := by
  unfold Statement
  decide

theorem r32g32b32 : Statement .r32g32b32 := by
  unfold Statement
  decide

theorem r32g32b32a32 : Statement .r32g32b32a32 := by
  unfold Statement
  decide

end Sys2Proof.Laws.EncodedWord
end

