-- ==== Sys2Proof/Laws/Step.lean ====
section
/-! SUPPORT. Everything a host step and a step of the machine can do, each said once, and that each
transition keeps the invariant. -/

namespace Sys2Proof.Machine

/-- Everything a host step can do when it answers a next state. -/
theorem hostStep_cases (op : HostOp) (s t : State) (h : hostStep op s = .next t) :
    (∃ addr bits value offset, op = .regWrite addr bits value ∧
      accessOffset s.params addr bits = some offset ∧ s.registersHeld = false ∧
      t = writeOffset s offset value) ∨
    (∃ addr bits offset, op = .regRead addr bits ∧
      accessOffset s.params addr bits = some offset ∧ t = s.observeReg addr offset) ∨
    (∃ addr bytes, op = .memWrite addr bytes ∧ insideMemory s.params addr bytes.length = true ∧
      s.memHazard addr bytes.length = false ∧ t = { s with mem := s.mem.write addr bytes }) ∨
    (∃ addr count, op = .memRead addr count ∧ insideMemory s.params addr count = true ∧
      s.memHazard addr count = false ∧
      t = { s with trace := .memBytes addr (s.mem.readBytes addr count) :: s.trace }) ∨
    (op = .poll ∧ (s.status.state = .done ∨ s.status.state = .error) ∧
      t = s.observeReg (s.params.regBase + RegName.status.offset) RegName.status.offset) ∨
    (op = .poll ∧ ¬ (s.status.state = .done ∨ s.status.state = .error) ∧
      t = { s.observeReg (s.params.regBase + RegName.status.offset) RegName.status.offset with
            hostQueue := .poll :: s.hostQueue }) ∨
    (op = .reset ∧ t = s.resetEvent) := by
  cases op with
  | regWrite addr bits value =>
    left
    simp only [hostStep] at h
    split at h
    · simp at h
    · rename_i offset ho
      split at h
      · simp at h
      · rename_i hb
        exact ⟨addr, bits, value, offset, rfl, ho, by simpa using hb, by simpa using h.symm⟩
  | regRead addr bits =>
    right; left
    simp only [hostStep] at h
    split at h
    · simp at h
    · rename_i offset ho
      exact ⟨addr, bits, offset, rfl, ho, by simpa using h.symm⟩
  | memWrite addr bytes =>
    right; right; left
    simp only [hostStep] at h
    split at h
    · simp at h
    · rename_i hi
      split at h
      · simp at h
      · rename_i hz
        exact ⟨addr, bytes, rfl, by simpa using hi, by simpa using hz, by simpa using h.symm⟩
  | memRead addr count =>
    right; right; right; left
    simp only [hostStep] at h
    split at h
    · simp at h
    · rename_i hi
      split at h
      · simp at h
      · rename_i hz
        exact ⟨addr, count, rfl, by simpa using hi, by simpa using hz, by simpa using h.symm⟩
  | poll =>
    right; right; right; right
    simp only [hostStep] at h
    split at h
    · rename_i hd
      exact .inl ⟨rfl, hd, by simpa using h.symm⟩
    · rename_i hd
      exact .inr (.inl ⟨rfl, hd, by simpa using h.symm⟩)
  | reset =>
    simp only [hostStep] at h
    exact .inr (.inr (.inr (.inr (.inr (.inr ⟨rfl, by simpa using h.symm⟩)))))

/-- Everything a step can do when it answers a next state: nothing is enabled; or the host takes its
next step; or the engine completes the running command. -/
theorem step_cases (s t : State) (h : step s = .next t) :
    t = { s with schedule := s.schedule.tail } ∨
    (∃ op rest, nextAgent s = .host ∧ s.hostQueue = op :: rest ∧
      hostStep op { s with schedule := s.schedule.tail, hostQueue := rest } = .next t) ∨
    (nextAgent s = .engine ∧ s.status.state = .busy ∧
      completeCommand { s with schedule := s.schedule.tail } = .next t) := by
  unfold step turn at h
  split at h
  · rename_i ha
    unfold hostTurn at h
    split at h
    · left
      simpa using h.symm
    · rename_i op rest hq
      exact .inr (.inl ⟨op, rest, ha, hq, h⟩)
  · rename_i ha
    unfold engineTurn at h
    split at h
    · rename_i hb
      exact .inr (.inr ⟨ha, hb, h⟩)
    · left
      simpa using h.symm

/-- While a command runs and the engine is the next to move, the step is the completion of the command
(R37, R345). -/
theorem step_engine_busy (s : State) (ha : nextAgent s = .engine) (hb : s.status.state = .busy) :
    step s = completeCommand { s with schedule := s.schedule.tail } := by
  simp [step, ha, turn, engineTurn, hb]

theorem step_host_cons (s : State) (op : HostOp) (rest : List HostOp) (ha : nextAgent s = .host)
    (hq : s.hostQueue = op :: rest) :
    step s = hostStep op { s with schedule := s.schedule.tail, hostQueue := rest } := by
  simp [step, ha, turn, hostTurn, hq]

/-- `WR reg, v` of a host that moves while it may write registers (R35(c), R105). -/
theorem step_hostWR (s : State) (r : RegName) (v : Word) (rest : List HostOp)
    (hb : s.registersHeld = false) (hs : s.schedule = [])
    (hq : s.hostQueue = hostWR s.params r v :: rest) :
    step s = .next (writeReg { s with hostQueue := rest } r v) := by
  rw [step_host_cons s _ rest (by simp [nextAgent, hs, ((registersHeld_eq_false s).mp hb).1]) hq]
  have : s.schedule.tail = s.schedule := by rw [hs]; rfl
  simp only [this]
  have hw : ({ s with hostQueue := rest } : State).registersHeld = false := hb
  simp [hostWR, hostStep, hw]

/-- Every step that answers a next state uses up one choice of the environment. -/
theorem step_schedule (s t : State) (h : step s = .next t) : t.schedule = s.schedule.tail := by
  rcases step_cases s t h with rfl | ⟨op, rest, _, _, hst⟩ | ⟨_, _, hc⟩
  · rfl
  · rcases hostStep_cases op _ t hst with ⟨_, _, _, _, _, _, _, rfl⟩ | ⟨_, _, _, _, _, rfl⟩ |
      ⟨_, _, _, _, _, rfl⟩ | ⟨_, _, _, _, _, rfl⟩ | ⟨_, _, rfl⟩ | ⟨_, _, rfl⟩ | ⟨_, rfl⟩ <;>
      first | rfl | simp
  · rcases completeCommand_cases { s with schedule := s.schedule.tail } with
      ⟨code, _, he⟩ | ⟨i, _, _, _, he⟩
    · rw [he] at hc
      cases hc
      rfl
    · rw [he] at hc
      generalize rasterOf i _ = bytes at hc
      cases hc
      rfl

/-- A run whose first step answers a next state goes on from it. -/
theorem run_succ_of_next (M : Host.Core) (k : Nat) (s t : M.State) (h : M.step s = .next t) :
    M.run (k + 1) s = M.run k t := by
  simp [Host.Core.run, h]

theorem run_succ_of_fault (M : Host.Core) (k : Nat) (s : M.State) (f : M.Fault)
    (h : M.step s = .fault f) : M.run (k + 1) s = .fault f := by
  simp [Host.Core.run, h]

/-! ### The invariant, transition by transition -/

/-- Memory is canonical right after reset. -/
theorem reset_mem_wf : State.reset.mem.wf = true := rfl

theorem State.Inv.start {s : State} (h : s.Inv) (hw : s.registersHeld = false) : s.start.Inv where
  memWf := h.memWf
  memBelow := h.memBelow
  errIff := by simp
  latchEq := by simp
  unreadHead := by simp
  running := by simp
  idleNone := by simp
  single := by
    intro hd
    simp [((registersHeld_eq_false s).mp hw).2 hd]

theorem State.Inv.complete {s : State} (h : s.Inv) (i : Instr)
    (hc : regionError s.params.memSize (needSrc i) s.latch = none) :
    (s.complete (rasterOf i s)).Inv where
  memWf := by simpa using Memory.wf_write _ _ _ h.memWf
  memBelow := by
    simpa using Memory.below_write _ _ _ _ h.memBelow (complete_inside i s hc)
  errIff := by simp
  latchEq := fun ht => h.latchEq ((registersHeld_iff s).mpr (.inr (by
    simpa using (registersHeld_iff _).mp ht)))
  unreadHead := h.unreadHead
  running := by simp
  idleNone := by simp
  single := h.single

/-- The codes a failed check gives are not NONE (R300). -/
theorem regionError_ne_none (memSize : Nat) (need : Args → Nat) (a : Args) :
    regionError memSize need a ≠ some .none := by
  unfold regionError
  split
  · simp
  split
  · simp
  split
  · simp
  split <;> simp

theorem verdict_error_ne_none (p : Params) (a : Args) : verdict p a ≠ .error .none := by
  unfold verdict
  split
  · rename_i e _
    cases e <;> simp [errOfDecode]
  · rename_i i _
    split
    · rename_i code hc
      have := regionError_ne_none p.memSize (needSrc i) a
      rw [hc] at this
      simpa using this
    · simp

theorem State.Inv.enterError {s : State} (h : s.Inv) (code : ErrCode) (hc : code ≠ .none) :
    (s.enterError code).Inv where
  memWf := h.memWf
  memBelow := h.memBelow
  errIff := by simpa using hc
  latchEq := fun ht => h.latchEq ((registersHeld_iff s).mpr (.inr (by
    simpa using (registersHeld_iff _).mp ht)))
  unreadHead := h.unreadHead
  running := by simp
  idleNone := by simp
  single := h.single

theorem State.Inv.observeReg {s : State} (h : s.Inv) (addr offset : Nat) :
    (s.observeReg addr offset).Inv where
  memWf := h.memWf
  memBelow := h.memBelow
  errIff := h.errIff
  latchEq := by
    intro ht
    rw [registersHeld_iff, observeReg_unread] at ht
    refine h.latchEq ((registersHeld_iff s).mpr (ht.imp_right fun ⟨hd, hu⟩ => ⟨hd, ?_⟩))
    split at hu
    · exact absurd rfl hu
    · exact hu
  unreadHead := by
    rw [observeReg_unread]
    split
    · simp
    · exact h.unreadHead
  running := by
    intro hb
    have hb : s.status.state = .busy := hb
    simpa [hb] using h.running hb
  idleNone := by
    intro hi
    have hi : s.status.state = .idle := hi
    simp [h.idleNone hi]
  single := by
    intro hd
    rw [observeReg_unread]
    split
    · simp
    · exact h.single hd

theorem State.Inv.writeOffset {s : State} (h : s.Inv) (hw : s.registersHeld = false) (offset : Nat)
    (v : Word) : (writeOffset s offset v).Inv := by
  rcases writeOffset_cases s offset v with ⟨regs, he⟩ | ⟨_, _, he⟩
  · rw [he]
    exact
      { memWf := h.memWf, memBelow := h.memBelow, errIff := h.errIff
        latchEq := fun hw' => absurd (hw'.symm.trans hw) (by decide)
        unreadHead := h.unreadHead, running := h.running, idleNone := h.idleNone
        single := h.single }
  · rw [he]
    exact h.start hw

theorem dstFootprint_inside (p : Params) (a : Args) (h : dstFootprint p a ≠ 0) :
    a.dstBase.toNat + dstFootprint p a ≤ p.memSize := by
  unfold dstFootprint at h ⊢
  cases hv : verdict p a with
  | error e => simp [hv] at h
  | ok i =>
    have hr := (verdict_ok p a i hv).2
    unfold regionError at hr
    split at hr
    · simp at hr
    split at hr
    · simp at hr
    simp only
    omega

theorem State.Inv.resetEvent {s : State} (h : s.Inv) : s.resetEvent.Inv where
  memWf := by
    by_cases hb : s.status.state = .busy
    · rw [resetEvent_mem_of_busy s hb]
      split
      · exact h.memWf
      · exact Memory.wf_write _ _ _ h.memWf
    · rw [resetEvent_mem_of_not_busy s hb]
      exact h.memWf
  memBelow := by
    rw [resetEvent_params]
    by_cases hb : s.status.state = .busy
    · rw [resetEvent_mem_of_busy s hb]
      split
      · exact h.memBelow
      · rename_i hd
        exact Memory.below_write _ _ _ _ h.memBelow
          (.inr (by simpa using dstFootprint_inside s.params s.latch hd))
    · rw [resetEvent_mem_of_not_busy s hb]
      exact h.memBelow
  errIff := by simp
  latchEq := by simp [registersHeld_iff]
  unreadHead := by simp
  running := by simp
  idleNone := by simp
  single := by simp

end Sys2Proof.Machine
end

