-- ==== Sys2Proof/Tests/Slice0.lean ====
section
/-! SUPPORT. The model's own tests. Expected results are those of spec/: the words of 30_encoding.md R92,
the examples of R144, R160 to R179, R203, R206, R207 and R240 to R243, and the vectors of
95_test_vectors.md, named in each comment. The second half shows, for every obligation with hypotheses,
a state and operands that meet them. -/

namespace Sys2Proof.Tests

open Sys2Proof.Machine

/-! ### The smoke test of well-formedness: each check refuses an ill-formed parameter set (R7) -/

theorem test_wf_default : Params.default.wf = true := by decide

theorem test_wf_largest : ({ Params.default with memSize := 2 ^ 32 } : Params).wf = true := by decide

theorem test_wf_smallest : ({ Params.default with memSize := 1 } : Params).wf = true := by decide

theorem test_wf_refuses_no_memory : ({ Params.default with memSize := 0 } : Params).wf = false := by
  decide

theorem test_wf_refuses_memory_beyond_addresses :
    ({ Params.default with memSize := 2 ^ 32 + 1 } : Params).wf = false := by decide

theorem test_wf_refuses_no_unit : ({ Params.default with numUnits := 0 } : Params).wf = false := by
  decide

/-! ### Command words, written out from the bits of R90 and R92: {RSVD = 0, OP} -/

theorem test_decode_pvrtc :
    decode 0b00000000_00000000_00000000_00000000#32 = .ok .pvrtc1_2bpp ∧
    decode 0b00000000_00000000_00000000_00000001#32 = .ok .pvrtc1_4bpp ∧
    decode 0b00000000_00000000_00000000_00000010#32 = .ok .pvrtc2_2bpp ∧
    decode 0b00000000_00000000_00000000_00000011#32 = .ok .pvrtc2_4bpp := by decide

theorem test_decode_one_and_two_bytes :
    decode 0b00000000_00000000_00000000_00010000#32 = .ok .l8 ∧
    decode 0b00000000_00000000_00000000_00010001#32 = .ok .a8 ∧
    decode 0b00000000_00000000_00000000_00010010#32 = .ok .r8 ∧
    decode 0b00000000_00000000_00000000_00010011#32 = .ok .l8a8 ∧
    decode 0b00000000_00000000_00000000_00010100#32 = .ok .r8g8 ∧
    decode 0b00000000_00000000_00000000_00010101#32 = .ok .r5g6b5 ∧
    decode 0b00000000_00000000_00000000_00010110#32 = .ok .r5g5b5a1 ∧
    decode 0b00000000_00000000_00000000_00010111#32 = .ok .r4g4b4a4 ∧
    decode 0b00000000_00000000_00000000_00011000#32 = .ok .r16 := by decide

theorem test_decode_three_and_four_bytes :
    decode 0b00000000_00000000_00000000_00011001#32 = .ok .r8g8b8 ∧
    decode 0b00000000_00000000_00000000_00011010#32 = .ok .r8g8b8a8 ∧
    decode 0b00000000_00000000_00000000_00011011#32 = .ok .b8g8r8a8 ∧
    decode 0b00000000_00000000_00000000_00011100#32 = .ok .r10g10b10a2 ∧
    decode 0b00000000_00000000_00000000_00011101#32 = .ok .r16g16 ∧
    decode 0b00000000_00000000_00000000_00011110#32 = .ok .r32 := by decide

theorem test_decode_wider :
    decode 0b00000000_00000000_00000000_00011111#32 = .ok .r16g16b16 ∧
    decode 0b00000000_00000000_00000000_00100000#32 = .ok .r16g16b16a16 ∧
    decode 0b00000000_00000000_00000000_00100001#32 = .ok .r32g32 ∧
    decode 0b00000000_00000000_00000000_00100010#32 = .ok .r32g32b32 ∧
    decode 0b00000000_00000000_00000000_00100011#32 = .ok .r32g32b32a32 := by decide

/-- R93, R94: the values on either side of the gaps, and one reserved bit at each end of the field. -/
theorem test_decode_rejects :
    decode 0x00000004#32 = .error .unsupported ∧ decode 0x0000000F#32 = .error .unsupported ∧
    decode 0x00000024#32 = .error .unsupported ∧ decode 0x000000FF#32 = .error .unsupported ∧
    decode 0x00000100#32 = .error .illegalCmd ∧ decode 0x80000010#32 = .error .illegalCmd ∧
    decode 0x00000130#32 = .error .illegalCmd := by decide

theorem test_table_word : decodeTableWord 32 0x16 = some .r5g5b5a1 ∧
    decodeTableWord 32 0x24 = none ∧ decodeTableWord 8 0x123 = some .r32g32b32a32 := by decide

/-! ### Helpers -/

/-- The seven argument words. -/
def args (cmd w h src slen dst dlen : Nat) : Args :=
  { cmd := BitVec.ofNat 32 cmd, width := BitVec.ofNat 32 w, height := BitVec.ofNat 32 h,
    srcBase := BitVec.ofNat 32 src, srcLen := BitVec.ofNat 32 slen,
    dstBase := BitVec.ofNat 32 dst, dstLen := BitVec.ofNat 32 dlen }

/-- A command running over a memory, the engine next to move. -/
def running (a : Args) (m : Memory) : State :=
  { State.reset with
    regs := a, latch := a, status := { state := .busy, err := .none }, mem := m, unread := [a] }

/-- Memory with the bytes at 0x100. -/
def source (bytes : List Byte) : Memory := Memory.write [] 0x100 bytes

/-- `STATUS` and `n` bytes at `addr` after one step. -/
def after (s : State) (addr n : Nat) : Option (Word × List Byte) :=
  match step s with
  | .next t => some (t.status.word, t.mem.readBytes addr n)
  | .fault _ => none
  | .refused _ => none

/-- One pixel of a bank command: the source bytes at 0x100, one pixel at 0x200. -/
def onePixel (op : Nat) (bytes : List Byte) : Option (Word × List Byte) :=
  after (running (args op 1 1 0x100 bytes.length 0x200 4) (source bytes)) 0x200 4

/-- The first `w` pixels of the top row of a PVRTC command at the floor size, over four words. -/
def topRow (op w : Nat) (words : List Byte) : Option (Word × List Byte) :=
  after (running (args op w 1 0x100 32 0x200 (4 * w)) (source words)) 0x200 (4 * w)

/-- Four equal PVRTC words. -/
def uniform (word : List Byte) : List Byte := word ++ word ++ word ++ word

/-! ### The bank: the first vector of each format in 95_test_vectors.md L2.7, and a corner case -/

/-- L8, A8, R8, L8A8 and R8G8. -/
theorem test_bank_luminance_and_alpha :
    onePixel 0x10 [0x7F] = some (2#32, [127, 127, 127, 255]) ∧
    onePixel 0x11 [0x40] = some (2#32, [255, 255, 255, 64]) ∧
    onePixel 0x12 [0xC3] = some (2#32, [195, 0, 0, 255]) ∧
    onePixel 0x13 [0x10, 0x80] = some (2#32, [16, 16, 16, 128]) ∧
    onePixel 0x14 [0x12, 0x34] = some (2#32, [18, 52, 0, 255]) := by
  decide +kernel

/-- R5G6B5, R5G5B5A1, R4G4B4A4 and R10G10B10A2. -/
theorem test_bank_packed :
    onePixel 0x15 [0x10, 0x84] = some (2#32, [132, 130, 132, 255]) ∧
    onePixel 0x16 [0x3F, 0xF8] = some (2#32, [255, 0, 255, 255]) ∧
    onePixel 0x17 [0x4F, 0x8C] = some (2#32, [136, 204, 68, 255]) ∧
    onePixel 0x1C [0x00, 0x00, 0xF0, 0xFF] = some (2#32, [255, 192, 0, 0]) ∧
    onePixel 0x1C [0xFE, 0x03, 0xC0, 0xFF] = some (2#32, [255, 0, 63, 170]) := by
  decide +kernel

/-- R8G8B8, R8G8B8A8, B8G8R8A8, R16 and R16G16. -/
theorem test_bank_bytes :
    onePixel 0x19 [1, 2, 3] = some (2#32, [1, 2, 3, 255]) ∧
    onePixel 0x1A [1, 2, 3, 4] = some (2#32, [1, 2, 3, 4]) ∧
    onePixel 0x1B [1, 2, 3, 4] = some (2#32, [3, 2, 1, 4]) ∧
    onePixel 0x18 [0xCD, 0xAB] = some (2#32, [171, 0, 0, 255]) ∧
    onePixel 0x1D [0x34, 0x12, 0x78, 0x56] = some (2#32, [18, 86, 0, 255]) := by
  decide +kernel

/-- R32, R16G16B16 and R16G16B16A16. -/
theorem test_bank_wide :
    onePixel 0x1E [0x78, 0x56, 0x34, 0x12] = some (2#32, [18, 0, 0, 255]) ∧
    onePixel 0x1F [0x00, 0x11, 0x00, 0x22, 0x00, 0x33] = some (2#32, [17, 34, 51, 255]) ∧
    onePixel 0x20 [0xFF, 0x80, 0xFF, 0x7F, 0x00, 0x01, 0xFF, 0xFF] = some (2#32, [128, 127, 1, 255]) := by
  decide +kernel

/-- R32G32, R32G32B32 and R32G32B32A32. -/
theorem test_bank_widest :
    onePixel 0x21 [0, 0, 0, 0xA0, 0xFF, 0xFF, 0xFF, 0x0B] = some (2#32, [160, 11, 0, 255]) ∧
    onePixel 0x22 [0, 0, 0, 1, 0, 0, 0, 2, 0, 0, 0, 3] = some (2#32, [1, 2, 3, 255]) ∧
    onePixel 0x23 [0, 0, 0, 0xFF, 0, 0, 0, 0x80, 0, 0, 0, 1, 0xFF, 0xFF, 0xFF, 0] =
      some (2#32, [255, 128, 1, 0]) := by
  decide +kernel

/-- V-B-37: raster order. -/
theorem test_l8_raster_order :
    after (running (args 0x10 3 2 0x100 6 0x200 24) (source [0, 0x10, 0x20, 0x30, 0x40, 0x50]))
      0x200 24 =
      some (2#32, [0, 0, 0, 255, 0x10, 0x10, 0x10, 255, 0x20, 0x20, 0x20, 255,
        0x30, 0x30, 0x30, 255, 0x40, 0x40, 0x40, 255, 0x50, 0x50, 0x50, 255]) := by decide +kernel

/-- R144: the values it lists. -/
theorem test_rep8 :
    [0, 1].map (rep8 · 1) = [0, 255] ∧ [0, 1, 2, 3].map (rep8 · 2) = [0, 85, 170, 255] ∧
    [0, 1, 2, 3, 4, 5, 6, 7].map (rep8 · 3) = [0, 36, 73, 109, 146, 182, 219, 255] ∧
    [0, 1, 32, 63].map (rep8 · 6) = [0, 4, 130, 255] ∧ [1, 16, 31].map (rep8 · 5) = [8, 132, 255] := by
  decide

/-! ### PVRTC: 95_test_vectors.md L2.2 to L2.6 -/

/-- R203's tables for 4×4, 8×2 and 3×2. -/
theorem test_twiddle :
    [0, 1, 2, 3].map (twiddle 4 4 · 2) = [8, 9, 12, 13] ∧
    [0, 1].map (twiddle 2 4 · 3) = [6, 7] ∧
    [0, 1, 2, 3, 4, 5, 6, 7].map (twiddle 8 2 · 1) = [2, 3, 6, 7, 10, 11, 14, 15] ∧
    [0, 1, 2].map (twiddle 3 2 · 1) = [2, 3, 6] := by decide

/-- R97 and R202: word (0, 1) of a 2×2 grid of PVRTC1 and of a 4×2 grid of PVRTC2, from the bytes of the
examples of R203 and R202: at 8·2 and at 8·4. -/
theorem test_word_at_its_offset :
    readWord (Memory.write [] 0x110 [1, 2, 3, 4, 5, 6, 7, 8]) 0x100 ⟨.pvrtc1, .four, 2, 2⟩ 0 1 =
      ⟨0x04030201, 0x08070605⟩ ∧
    readWord (Memory.write [] 0x120 [1, 2, 3, 4, 5, 6, 7, 8]) 0x100 ⟨.pvrtc2, .four, 4, 2⟩ 0 1 =
      ⟨0x04030201, 0x08070605⟩ := by decide +kernel

/-- V-E-13, V-E-22 and R241: source sizes. -/
theorem test_needSrc :
    pvrtcNeedSrc .pvrtc1 .two (args 0 48 8 0 0 0 0) = 96 ∧
    pvrtcNeedSrc .pvrtc1 .four (args 1 12 8 0 0 0 0) = 56 ∧
    pvrtcNeedSrc .pvrtc2 .four (args 3 12 8 0 0 0 0) = 48 ∧
    pvrtcNeedSrc .pvrtc1 .four (args 1 1 1 0 0 0 0) = 32 ∧
    pvrtcNeedSrc .pvrtc1 .four (args 1 0 8 0 0 0 0) = 0 := by decide +kernel

/-- L2.3. -/
theorem test_endpoints :
    colourA .pvrtc1 0x3A5B4C6D = ⟨25, 12, 27, 8⟩ ∧ colourB .pvrtc1 0x3A5B4C6D = ⟨21, 10, 23, 6⟩ ∧
    colourA .pvrtc1 0xC210A842 = ⟨10, 2, 2, 15⟩ ∧ colourB .pvrtc1 0xC210A842 = ⟨16, 16, 16, 15⟩ ∧
    colourA .pvrtc1 0xFC1F83E0 = ⟨0, 31, 0, 15⟩ ∧ colourB .pvrtc2 0xFC1F83E0 = ⟨31, 0, 31, 15⟩ := by
  decide

/-- V-P1-7, the first three pixels of row 0 of the gradient: the interpolation, the quadrants and the
wrap to the far side. -/
theorem test_pvrtc1_4bpp_gradient :
    topRow 0x01 3 [0, 0, 0, 0, 0xFE, 0xFF, 0, 0x80, 0, 0, 0, 0, 0, 0x80, 0, 0x80,
      0, 0, 0, 0, 0, 0x80, 0, 0x80, 0, 0, 0, 0, 0, 0x80, 0, 0x80] =
      some (2#32, [63, 63, 63, 255, 95, 95, 95, 255, 127, 127, 127, 255]) := by decide +kernel

/-- V-P1-5: code 2, MODFLAG = 1 without effect. -/
theorem test_pvrtc1_4bpp_code2 :
    topRow 0x01 1 (uniform [0xAA, 0xAA, 0xAA, 0xAA, 0x01, 0x80, 0xFF, 0xFF]) =
      some (2#32, [159, 159, 159, 255]) := by decide +kernel

/-- V-P1-11, H-only: row 0, columns 0 to 4. -/
theorem test_pvrtc1_2bpp_hOnly :
    topRow 0x00 5 (uniform [0x0D, 0x0F, 0x0F, 0x0F, 0x01, 0x80, 0xFF, 0xFF]) =
      some (2#32, [0, 0, 0, 255, 127, 127, 127, 255, 255, 255, 255, 255, 127, 127, 127, 255,
        0, 0, 0, 255]) := by decide +kernel

/-- V-P1-11, H&V: row 0, columns 0 to 3. -/
theorem test_pvrtc1_2bpp_hv :
    topRow 0x00 4 (uniform [0x0C, 0x0F, 0x0F, 0x0F, 0x01, 0x80, 0xFF, 0xFF]) =
      some (2#32, [0, 0, 0, 255, 191, 191, 191, 255, 255, 255, 255, 255, 191, 191, 191, 255]) := by
  decide +kernel

/-- V-P1-11, V-only with the word of `0x0F1F0F0D`, under PVRTC2 with a soft word: row 0, columns 0 to 3. -/
theorem test_pvrtc2_2bpp_vOnly :
    topRow 0x02 4 (uniform [0x0D, 0x0F, 0x1F, 0x0F, 0x01, 0x00, 0xFF, 0xFF]) =
      some (2#32, [0, 0, 0, 255, 255, 255, 255, 255, 255, 255, 255, 255, 255, 255, 255, 255]) := by
  decide +kernel

/-- V-P2-7. -/
theorem test_pvrtc2_2bpp :
    topRow 0x02 1 (uniform [0xFF, 0xFF, 0xFF, 0xFF, 0x00, 0x00, 0xFF, 0xFF]) =
      some (2#32, [255, 255, 255, 255]) := by decide +kernel

/-- V-P2-1: a hard word with HARD_ALPHA_MODE = ZERO. -/
theorem test_pvrtc2_4bpp_hard :
    topRow 0x03 1 (uniform [0xAA, 0xAA, 0xAA, 0xAA, 0x00, 0x80, 0xFF, 0xFF]) =
      some (2#32, [159, 159, 159, 0]) := by decide +kernel

/-- V-P2-6: punch-through in the even columns. -/
theorem test_pvrtc2_4bpp_punch_through :
    topRow 0x03 2 (uniform [0x22, 0x22, 0x22, 0x22, 0x01, 0x00, 0xFF, 0xFF]) =
      some (2#32, [0, 0, 0, 0, 0, 0, 0, 255]) := by decide +kernel

/-! ### Errors: the vectors of 95_test_vectors.md L2.1 -/

/-- V-E-6 and V-E-9. -/
theorem test_range_and_dst_short :
    after (running (args 0x10 2 2 0x100 4 0xFFFC 16) []) 0x200 1 = some (0x303#32, [0]) ∧
    after (running (args 0x10 2 2 0x100 3 0x200 15) []) 0x200 1 = some (0x403#32, [0]) := by
  decide +kernel

/-- V-E-12, V-E-17 and V-E-18: the floor, a source inside the destination, adjacent regions. -/
theorem test_src_short_and_overlap :
    after (running (args 0x01 4 4 0x100 31 0x200 64) []) 0x200 1 = some (0x503#32, [0]) ∧
    after (running (args 0x10 2 2 0x10C 4 0x100 16) []) 0x100 1 = some (0x603#32, [0]) ∧
    after (running (args 0x10 2 2 0x110 4 0x100 16) []) 0x100 4 = some (2#32, [0, 0, 0, 255]) := by
  decide +kernel

/-- V-E-2 and V-E-5: ILLEGAL_CMD before UNSUPPORTED, and UNSUPPORTED for an empty request too. -/
theorem test_command_word_errors :
    after (running (args 0x130 2 2 0x100 4 0x200 16) []) 0x200 1 = some (0x103#32, [0]) ∧
    after (running (args 0xFF 0 0 0 0 0 0) []) 0x200 1 = some (0x203#32, [0]) := by
  decide +kernel

/-! ### The host: 95_test_vectors.md L3 -/

/-- L3-P6: a write into the running destination, with the host next to move. -/
theorem test_mem_busy :
    hostStep (.memWrite 0x200 [0xAA]) (running (args 0x10 2 2 0x100 4 0x200 16) []) =
      .fault (.hostHazard .memBusy) := by rfl

/-- L3-P6: `WR WIDTH, 4` in its place. -/
theorem test_reg_write_busy :
    hostStep (hostWR Params.default .width 4) (running (args 0x10 2 2 0x100 4 0x200 16) []) =
      .fault (.hostHazard .regWriteBusy) := by rfl

/-- A completed command that the host has not read, under either reading of the duty. -/
def unread (duty : RegWriteDuty) : State :=
  { running (args 0x10 2 2 0x100 4 0x200 16) [] with
    status := ⟨.done, .none⟩, params := { Params.default with regWriteDuty := duty } }

/-- R32, R35(c), R37: from DONE a register write is stored and a START is taken, with no read between. -/
theorem test_start_from_unread_done :
    hostStep (hostWR Params.default .width 4) (unread .whileBusy) =
      .next { unread .whileBusy with regs := { (unread .whileBusy).regs with width := 4 } } ∧
    hostStep (hostWR Params.default .ctrl 1) (unread .whileBusy) = .next (unread .whileBusy).start ∧
    (unread .whileBusy).start.status = ⟨.busy, .none⟩ := ⟨rfl, rfl, rfl⟩

/-- R344(a) under its reading: the same write faults until the host has read STATUS. -/
theorem test_reg_write_before_status_read :
    let s := unread .untilStatusRead
    hostStep (hostWR Params.default .width 4) s = .fault (.hostHazard .regWriteBusy) ∧
    (s.observeReg 0x20 0x20).registersHeld = true ∧
    hostStep (hostWR Params.default .width 4) (s.observeReg 0x24 0x24) =
      .next { s.observeReg 0x24 0x24 with regs := { s.regs with width := 4 } } :=
  ⟨rfl, rfl, rfl⟩

/-- R33 and R300: the words 0x00000002 (DONE) and 0x00000603 (ERROR, OVERLAP) of 95_test_vectors.md L3. -/
theorem test_status_words :
    Status.word ⟨.done, .none⟩ = 0x00000002#32 ∧ Status.word ⟨.error, .overlap⟩ = 0x00000603#32 := by decide

/-- R42: STATUS and ID right after reset. -/
theorem test_reset_reads :
    readReg State.reset .status = 0#32 ∧ readReg State.reset .id = 0x50564452#32 := by decide

/-- The first instruction after reset, as the host asks it: R5G5B5A1 on the reset registers is the empty
command, DONE. -/
theorem test_fetch_word : after (State.reset.withFetchWord 32 0x16) 0 1 = some (2#32, [0]) := by decide

/-! ### Witnesses: a state and operands that meet the hypotheses of each obligation that has any -/

/-- L3-P1: an L8 command of 2×2 pixels, running. -/
def l8Run : State := running (args 0x10 2 2 0x100 4 0x200 16) (source [0, 0x40, 0x80, 0xFF])

/-- A word of code 1 everywhere, MODFLAG = 0, black and white opaque endpoints (R241's example). -/
def plainWord : List Byte := [0x55, 0x55, 0x55, 0x55, 0x00, 0x80, 0xFF, 0xFF]

/-- A PVRTC1_4BPP command of `w × h` pixels over four such words, running. -/
def pvrtcRun (w h : Nat) : State :=
  running (args 0x01 w h 0x100 32 0x200 (4 * w * h)) (source (uniform plainWord))

/-- A command whose word is unassigned (R93), running. -/
def badRun (cmd : Nat) : State := running (args cmd 2 2 0x100 4 0x200 16) []

/-- Four equal words. -/
def tile (mod col : Nat) : Tile := ⟨⟨mod, col⟩, ⟨mod, col⟩, ⟨mod, col⟩, ⟨mod, col⟩⟩

theorem witness_DecodeOfEncodeIsTheInstruction : Instr.wf .r32g32b32a32 = true := rfl

theorem witness_OpBitsChooseVariantAndMode : (Instr.op .pvrtc2_4bpp).extractLsb' 4 4 = 0#4 := by decide

theorem witness_StepRunsTheDecodedCommand :
    l8Run.status.state = .busy ∧ l8Run.schedule = [] ∧ decode l8Run.latch.cmd = .ok .l8 := by decide

theorem witness_StepRunsTheDecodedCommand_scheduled :
    let s := State.reset.withFetchWord 32 0x03
    s.status.state = .busy ∧ s.schedule = [.engine] ∧ decode s.latch.cmd = .ok .pvrtc2_4bpp := by decide

/-- The reserved field with its lowest and highest bit; the ends of both gaps; the reserved offsets. -/
theorem witness_UnassignedWordsEndInError :
    (badRun 0x110).status.state = .busy ∧ (badRun 0x110).schedule = [] ∧
    (badRun 0x110).latch.cmd.extractLsb' 8 24 ≠ 0#24 ∧
    (badRun 0x80000010).latch.cmd.extractLsb' 8 24 ≠ 0#24 ∧
    (∀ op ∈ [0x04, 0x0F, 0x24, 0xFF], (badRun op).latch.cmd.extractLsb' 8 24 = 0#24 ∧
      ((0x04#8 ≤ (badRun op).latch.cmd.extractLsb' 0 8 ∧
          (badRun op).latch.cmd.extractLsb' 0 8 ≤ 0x0F#8) ∨
        0x24#8 ≤ (badRun op).latch.cmd.extractLsb' 0 8)) ∧
    10 ≤ 10 ∧ 15 < 16 := by decide

/-- An L8 command of 2×2 pixels at the given regions, running. -/
def l8At (src slen dst dlen : Nat) : State := running (args 0x10 2 2 src slen dst dlen) []

/-- R301's clauses for L8, 2×2, each at the boundary value that just fails it, and the one that passes. -/
theorem witness_ChecksDecideInOrder :
    exec .l8 (l8At 0x100 4 0xFFF1 16) = .next ((l8At 0x100 4 0xFFF1 16).enterError .range) ∧
    exec .l8 (l8At 0x100 4 0xFFF0 15) = .next ((l8At 0x100 4 0xFFF0 15).enterError .dstShort) ∧
    exec .l8 (l8At 0x100 3 0xFFF0 16) = .next ((l8At 0x100 3 0xFFF0 16).enterError .srcShort) ∧
    exec .l8 (l8At 0x100 4 0x103 16) = .next ((l8At 0x100 4 0x103 16).enterError .overlap) ∧
    ∃ t, exec .l8 (l8At 0x100 4 0x104 16) = .next t ∧ t.status = ⟨.done, .none⟩ :=
  ⟨rfl, rfl, rfl, rfl, _, rfl, rfl⟩

theorem witness_ErrorChangesStatusOnly :
    verdict (badRun 0x24).params (badRun 0x24).latch = .error .unsupported ∧
    ∃ t, (badRun 0x24).status.state = .busy ∧ nextAgent (badRun 0x24) = .engine ∧
      step (badRun 0x24) = .next t ∧ t.status.state = .error :=
  ⟨rfl, _, rfl, rfl, rfl, rfl⟩

theorem witness_EveryCompletionEndsInDoneOrError :
    nextAgent l8Run = .engine ∧ l8Run.status.state = .busy ∧
    nextAgent { State.reset with schedule := [.engine] } = .engine ∧
    ({ State.reset with schedule := [.engine] } : State).status.state ≠ .busy := by decide

/-- Every operation has accepted commands: one pixel, an empty request at the top of memory, and a
source that touches the destination's end. -/
theorem witness_Accepts (i : Instr) :
    (running (args i.op.toNat 1 1 0x100 32 0x200 4) []).Accepts
      (needSrc i (args i.op.toNat 1 1 0x100 32 0x200 4)) ∧
    (running (args i.op.toNat 0 7 0x10000 0 0x10000 0) []).Accepts
      (needSrc i (args i.op.toNat 0 7 0x10000 0 0x10000 0)) ∧
    (running (args i.op.toNat 1 1 0xFFE0 32 0xFFDC 4) []).Accepts
      (needSrc i (args i.op.toNat 1 1 0xFFE0 32 0xFFDC 4)) := by
  unfold State.Accepts
  revert i
  intro i
  cases i <;> decide +kernel

theorem witness_NormalisationIsEightBit :
    8 < 9 ∧ 7 < 8 ∧ 1 ≤ 1 ∧ 1 < 2 ^ 1 ∧ 2 ^ 32 - 1 < 2 ^ 32 := by decide

theorem witness_ReplicationWidensEveryValue : 1 < 2 ∧ 127 < 128 ∧ 1 ≤ 1 ∧ 7 ≤ 7 := by decide

theorem witness_ChannelsRoundTrip : 255 < 256 ∧ 1 ≤ 1 ∧ 7 ≤ 7 := by decide

/-- A 10×8 command (R225's example): the first and the last tile pixel with its place, and an uncovered
column. -/
theorem witness_PvrtcDecodes :
    (pvrtcRun 10 8).Accepts (pvrtcNeedSrc .pvrtc1 .four (pvrtcRun 10 8).latch) ∧
    (6 = wrap (-1) 2 * 4 + 0 + 4 / 2 ∧ 0 < 4 / 2 ∧ 6 < 10 ∧ 6 < 8) ∧
    (5 = wrap (0 + 1) 2 * 4 + 3 - 4 / 2 ∧ ¬ 3 < 4 / 2 ∧ (-1 : Int) ≤ 0 ∧ (0 : Int) ≤ (2 : Nat) - 2) ∧
    2 * 4 ≤ 8 ∧ 8 < 10 := by
  unfold State.Accepts
  decide +kernel

/-- A 2×1 grid: the first and the last tile of each axis, the ends of the range of an index, and the last
word of the grid. -/
theorem witness_TilesAreTheirNeighbours :
    let g : Grid := ⟨.pvrtc2, .four, 2, 1⟩
    1 ≤ g.nx ∧ 1 ≤ g.ny ∧ ((-1 : Int) ≤ (g.nx : Int) - 2 ∧ (-1 : Int) ≤ (g.ny : Int) - 2) ∧
    ((-1 : Int) ≤ 0 ∧ (0 : Int) ≤ (g.nx : Int) - 2) ∧
    ((-1 : Int) ≤ -1 ∧ (-1 : Int) < g.nx ∧ (1 : Int) < g.nx ∧ (-1 : Int) < g.ny ∧ (0 : Int) < g.ny) ∧
    1 < g.nx ∧ 0 < g.ny := by decide

/-- The smallest command: the grid is 2×2 in both modes (R201). -/
theorem witness_PowerOfTwoGridNeedsItsWordsOnly :
    let a := args 1 1 1 0 0 0 0
    a.width ≠ 0 ∧ a.height ≠ 0 ∧
    (gridOf .pvrtc1 .four a).nx = 2 ^ 1 ∧ (gridOf .pvrtc1 .four a).ny = 2 ^ 1 ∧
    (gridOf .pvrtc1 .two a).nx = 2 ^ 1 ∧ (gridOf .pvrtc1 .two a).ny = 2 ^ 1 := by decide

theorem witness_EachScratchPixelHasOneTilePixel :
    15 < 2 * wordWidth .two ∧ 7 < 2 * 4 := by decide

theorem witness_TwiddleInterleavesBits : 0 < Nat.clog 2 (min 4 2) := by
  simp [Nat.clog]

theorem witness_NeededBytesAreTheGridsBytes :
    (args 1 0 8 0 0 0 0).width = 0 ∧ (args 1 1 1 0 0 0 0).width ≠ 0 ∧ (args 1 1 1 0 0 0 0).height ≠ 0 ∧
    1 < (gridOf .pvrtc1 .four (args 1 1 1 0 0 0 0)).nx := by decide

theorem witness_TilePixelBounds :
    0 < wordWidth .four ∧ 3 < wordWidth .four ∧ 7 < wordWidth .two ∧ 3 < 4 := by decide

/-- The grid's last place, and a neighbour beyond each side of the tile (x = 3, x = 12, y = 1, y = 6), in a
direct and in an interpolated word; then one word of each sub-mode, at an even and an odd place. -/
theorem witness_TwoBppWeightsFollowTheSubMode :
    (∀ k ∈ [(15, 7), (3, 3), (12, 2), (5, 1), (4, 6)],
      k.1 < 16 ∧ k.2 < 8 ∧ (k.1 + k.2) % 2 = 0 ∧ (tile 0 0).s.col % 2 = 0 ∧
      (tile 0 1).s.col % 2 = 1) ∧
    ((tile 0 0).owner .two 7 3).col % 2 = 0 ∧
    (((tile 0 1).owner .two 7 3).col % 2 = 1 ∧ (7 + 3) % 2 = 0) ∧
    (((tile 0 1).owner .two 7 0).col % 2 = 1 ∧ (7 + 0) % 2 = 1 ∧ ((tile 0 1).owner .two 7 0).mod % 2 = 0) ∧
    (((tile 1 1).owner .two 0 3).mod % 2 = 1 ∧ ((tile 1 1).owner .two 0 3).mod / 2 ^ 20 % 2 = 0) ∧
    (((tile 0x100001 1).owner .two 0 3).mod % 2 = 1 ∧
      ((tile 0x100001 1).owner .two 0 3).mod / 2 ^ 20 % 2 = 1) := by decide

theorem witness_InterpolationScalesToEightBits :
    let e : Colour := ⟨31, 31, 31, 15⟩
    e.r < 32 ∧ e.g < 32 ∧ e.b < 32 ∧ e.a < 16 ∧ 0 < wordWidth .four := by decide

/-- A hard and a soft owner, at the last pixel of the first quadrant and the first of the last. -/
theorem witness_HardQuadrantsAreFlat :
    ((tile 0 0x8000).owner .four 1 1).col / 2 ^ 15 % 2 = 1 ∧
    ((tile 0 0x7FFF).owner .four 2 2).col / 2 ^ 15 % 2 = 0 := by decide

theorem witness_PunchThroughClearsThePixel :
    10 < tileWeight .pvrtc2 .four (tile 0xAAAAAAAA 1) 0 0 := by decide

theorem witness_BlendNeedsNoClamp :
    tileWeight .pvrtc1 .four (tile 0xAAAAAAAA 1) 3 3 ≤ 10 ∧
    tileWeight .pvrtc2 .two (tile 0xFFFFFFFF 0) 7 3 ≤ 10 := by decide

theorem witness_SmallRequestsCropTheFloor :
    let s := pvrtcRun 4 4
    let s' := pvrtcRun 8 8
    s.mem = s'.mem ∧ s.params = s'.params ∧ s.latch.srcBase = s'.latch.srcBase ∧
    s.latch.width.toNat ≤ 8 ∧ s.latch.height.toNat ≤ 8 ∧
    s'.latch.width.toNat = 8 ∧ s'.latch.height.toNat = 8 ∧
    s.Accepts (pvrtcNeedSrc .pvrtc1 .four s.latch) ∧
    s'.Accepts (pvrtcNeedSrc .pvrtc1 .four s'.latch) := by
  unfold State.Accepts
  decide +kernel

theorem witness_UniformTexturesDecodeUniformly :
    let s := pvrtcRun 8 4
    (s.latch.width.toNat % 4 = 0 ∧ s.latch.height.toNat < 8) ∧
    s.Accepts (pvrtcNeedSrc .pvrtc1 .four s.latch) ∧
    ∀ x < (gridOf .pvrtc1 .four s.latch).nx, ∀ y < (gridOf .pvrtc1 .four s.latch).ny,
      readWord s.mem s.latch.srcBase.toNat (gridOf .pvrtc1 .four s.latch) x y =
        { mod := 1 * 0x55555555, col := 0xFFFF8000 } := by
  unfold State.Accepts
  decide +kernel

/-- Two memories that agree on the four source bytes and differ elsewhere. -/
theorem witness_OutputDependsOnSourceBytesOnly :
    l8Run.Accepts (needSrc .l8 l8Run.latch) ∧
    (∀ k < needSrc .l8 l8Run.latch,
      l8Run.mem.read (0x100 + k) = (l8Run.mem.write 0x104 [7]).read (0x100 + k)) ∧
    l8Run.mem.read 0x104 ≠ (l8Run.mem.write 0x104 [7]).read 0x104 := by
  unfold State.Accepts
  decide +kernel

theorem witness_DecodingAgainChangesNothing :
    l8Run.Accepts (needSrc .l8 l8Run.latch) ∧ (∃ t, exec .l8 l8Run = .next t) ∧
    l8Run.mem.wf = true := by
  have h : l8Run.Accepts (needSrc .l8 l8Run.latch) := by
    unfold State.Accepts
    decide +kernel
  exact ⟨h, ⟨_, exec_of_accepts .l8 l8Run h⟩, by decide⟩

theorem witness_RegisterReadsReturnTheirValues : 10 ≤ 10 ∧ 10 < 16 ∧ 10 ≤ 15 ∧ 15 < 16 := by decide

/-- L3-P1's command, completed and not yet read. -/
def l8Unread : State := { l8Run with status := ⟨.done, .none⟩ }

/-- The same under R344(a)'s reading of the duty. -/
def l8Held : State := { l8Unread with params := { Params.default with regWriteDuty := .untilStatusRead } }

/-- A wrong width, a wrong alignment and the first address past the window; a BUSY state and a held one; a
state in DONE and one in IDLE that may be written; the first and the last slot. -/
theorem witness_RegisterAccessRules :
    accessOffset State.reset.params 4 16 = none ∧ accessOffset State.reset.params 6 32 = none ∧
    accessOffset State.reset.params 64 32 = none ∧ accessOffset State.reset.params 60 32 = some 60 ∧
    l8Run.status.state = .busy ∧
    (l8Held.params.regWriteDuty = .untilStatusRead ∧ l8Held.unread ≠ []) ∧
    (l8Unread.status.state ≠ .busy ∧ l8Unread.params.regWriteDuty ≠ .untilStatusRead) ∧
    (State.reset.status.state ≠ .busy ∧ State.reset.unread = []) ∧
    0 < 16 ∧ 15 < 16 := by decide

/-- A step of each kind: START; a completion; a read of STATUS by RD and by POLL in DONE; a read of
STATUS while BUSY; reset. -/
theorem witness_StatusReadEndsTheWindow :
    (∃ t, step { State.reset with hostQueue := [hostWR Params.default .ctrl 1] } = .next t ∧
      t.status.state = .busy) ∧
    (∃ t, step (badRun 0x24) = .next t) ∧
    (∃ t, step { l8Unread with hostQueue := [hostRD Params.default .status] } = .next t) ∧
    (∃ t, step { l8Unread with hostQueue := [.poll] } = .next t) ∧
    (∃ t, step { l8Run with hostQueue := [.poll], schedule := [.host] } = .next t) ∧
    (∃ t, step { l8Unread with hostQueue := [.reset] } = .next t) :=
  ⟨⟨_, rfl, rfl⟩, ⟨_, rfl⟩, ⟨_, rfl⟩, ⟨_, rfl⟩, ⟨_, rfl⟩, ⟨_, rfl⟩⟩

theorem witness_StartLatchesTheArguments :
    (State.reset.status.state ≠ .busy ∧ State.reset.unread = []) ∧
    (l8Unread.status.state ≠ .busy ∧ l8Unread.params.regWriteDuty ≠ .untilStatusRead) ∧
    (1#32)[0] = true ∧ (0xFFFFFFFE#32)[0] = false ∧ l8Run.status.state = .busy ∧
    (l8Held.params.regWriteDuty = .untilStatusRead ∧ l8Held.unread ≠ []) := by decide

/-- A step of each kind: START, the completion, reset, and one that leaves STATUS. -/
theorem witness_OnlyThreeEventsWriteStatus :
    (∃ t, step { State.reset with hostQueue := [hostWR Params.default .ctrl 1] } = .next t) ∧
    (∃ t, step (badRun 0x24) = .next t) ∧
    (∃ t, step { State.reset with hostQueue := [.reset] } = .next t) ∧
    (∃ t, step State.reset = .next t) :=
  ⟨⟨_, rfl⟩, ⟨_, rfl⟩, ⟨_, rfl⟩, ⟨_, rfl⟩⟩

/-- The completion, with a reset waiting in the queue; and, under R344(a)'s reading, a register
read before STATUS is read. -/
theorem witness_RegistersAreStableWhileBusy :
    (∃ t, step { badRun 0x24 with hostQueue := [.reset] } = .next t ∧ (badRun 0x24).status.state = .busy ∧
      nextAgent { badRun 0x24 with hostQueue := [.reset] } = .engine) ∧
    (∃ t, step { l8Held with hostQueue := [hostRD Params.default .cmd] } = .next t ∧
      (l8Held.params.regWriteDuty = .untilStatusRead ∧ l8Held.unread ≠ []) ∧ (some (hostRD Params.default .cmd) : Option HostOp) ≠ some .reset) :=
  ⟨⟨_, rfl, rfl, rfl⟩, _, rfl, by decide, by decide⟩

/-- The last byte of the destination is guarded while BUSY and until the host has read STATUS, also through
a second START; the bytes next to both regions are not; and a command that ends in ERROR guards nothing. -/
theorem witness_HostMemoryDuties :
    0x20F + [(1 : Byte)].length ≤ l8Run.params.memSize ∧
    l8Run.memHazard 0x20F 1 = true ∧ l8Run.memHazard 0x100 1 = true ∧
    l8Run.memHazard 0x210 1 = false ∧ l8Run.memHazard 0x104 0xFC = false ∧
    l8Unread.memHazard 0x20F 1 = true ∧ (l8Unread.startWord 0x24).memHazard 0x20F 1 = true ∧
    l8Unread.memHazard 0x210 1 = false ∧
    (badRun 0x24).memHazard 0x100 0x200 = false := by decide +kernel

theorem witness_HostWritesElsewhereDoNotInteract :
    l8Run.status.state = .busy ∧ ∃ u, hostStep (.memWrite 0x210 [1]) l8Run = .next u :=
  ⟨rfl, _, rfl⟩

theorem witness_NoPartialRasterIsSeen :
    let s : State := { l8Run with schedule := [.host], hostQueue := [.memWrite 0x210 [1]] }
    s.status.state = .busy ∧ (∃ t, step s = .next t ∧ t.status.state = .busy) ∧
    verdict s.params s.latch = .ok .l8 :=
  ⟨rfl, ⟨_, rfl, rfl⟩, rfl⟩

theorem witness_ArgumentWritesCommute : RegName.cmd ≠ .width ∧ RegName.cmd ≠ .ctrl := by decide

theorem witness_DecodePseudoOperationRunsTheCommand :
    let a := args 0x10 2 2 0x100 4 0x200 16
    let s : State := { State.reset with hostQueue := hostDecode State.reset.params a ++ [.memRead 0x200 16] }
    s.status.state ≠ .busy ∧ s.unread = [] ∧ s.schedule = [] ∧ verdict s.params a = .ok .l8 := by decide +kernel

theorem witness_ResetWhileBusyFreesTheDestination :
    l8Run.status.state = .busy ∧ verdict l8Run.params l8Run.latch = .ok .l8 ∧
    (badRun 0x24).status.state = .busy ∧
    verdict (badRun 0x24).params (badRun 0x24).latch = .error .unsupported :=
  ⟨rfl, rfl, rfl, rfl⟩

/-- The running command meets the invariant, and its next step is the completion. -/
theorem witness_EveryStepKeepsTheInvariant : l8Run.Inv ∧ ∃ t, step l8Run = .next t := by
  refine ⟨⟨by decide, by decide, by decide, by decide, by decide, by decide, by decide, by decide⟩, ?_⟩
  rcases completeCommand_cases { l8Run with schedule := l8Run.schedule.tail } with
    ⟨_, _, h⟩ | ⟨_, _, _, _, h⟩
  · exact ⟨_, (step_engine_busy l8Run rfl rfl).trans h⟩
  · exact ⟨_, (step_engine_busy l8Run rfl rfl).trans h⟩

theorem witness_EveryCommandEnds : l8Run.status.state = .busy := rfl

/-- A step of each kind that faults: R305's three host hazards, and an access outside memory (log 8). -/
theorem witness_OnlyHostStepsFault :
    step { State.reset with hostQueue := [.regRead 2 32] } = .fault (.hostHazard .regAccess) ∧
    step { l8Run with hostQueue := [hostWR Params.default .width 4], schedule := [.host] } =
      .fault (.hostHazard .regWriteBusy) ∧
    step { l8Run with hostQueue := [.memRead 0x100 1], schedule := [.host] } =
      .fault (.hostHazard .memBusy) ∧
    step { State.reset with hostQueue := [.memRead 0x10000 1] } = .fault .hostOutsideMemory :=
  ⟨rfl, rfl, rfl, rfl⟩

end Sys2Proof.Tests
end

section
/-! PROOFS of the registers, STATUS and the invariant (10_state.md): first what a single turn of either
agent does to them, each said once; then the statements, by the theorem that settles each. -/

open Sys2Proof Sys2Proof.Machine

namespace Sys2Proof.Machine

/-! ### The fields of the STATUS word (R33) -/

theorem Status.word_state (st : Status) : st.word.extractLsb' 0 2 = st.state.code := by
  rw [Status.word, BitVec.extractLsb'_append_eq_of_add_le (by decide), BitVec.extractLsb'_eq_self]

theorem Status.word_low_zeros (st : Status) : st.word.extractLsb' 2 6 = 0#6 := by
  rw [Status.word, BitVec.extractLsb'_append_eq_of_le (by decide),
    BitVec.extractLsb'_append_eq_of_add_le (by decide), BitVec.extractLsb'_eq_self]

theorem Status.word_err (st : Status) : st.word.extractLsb' 8 4 = st.err.code := by
  rw [Status.word, BitVec.extractLsb'_append_eq_of_le (by decide),
    BitVec.extractLsb'_append_eq_of_le (by decide),
    BitVec.extractLsb'_append_eq_of_add_le (by decide), BitVec.extractLsb'_eq_self]

theorem Status.word_high_zeros (st : Status) : st.word.extractLsb' 12 20 = 0#20 := by
  rw [Status.word, BitVec.extractLsb'_append_eq_of_le (by decide),
    BitVec.extractLsb'_append_eq_of_le (by decide),
    BitVec.extractLsb'_append_eq_of_le (by decide), BitVec.extractLsb'_eq_self]

theorem ErrCode.code_le_six (err : ErrCode) : err.code ≤ 6#4 := by
  cases err <;> decide

/-! ### Host register accesses (R35) -/

theorem accessOffset_eq_none (p : Params) (addr bits : Nat)
    (h : ¬ (bits = 32 ∧ ∃ k, k < 16 ∧ addr = p.regBase + 4 * k)) :
    accessOffset p addr bits = none := by
  rw [Option.eq_none_iff_forall_ne_some]
  intro offset ho
  obtain ⟨hbits, haddr, hlt, hmod⟩ := accessOffset_eq_some p addr bits offset ho
  exact h ⟨hbits, offset / 4, by omega, by omega⟩

theorem hostStep_access_illegal (s : State) (addr bits : Nat) (v : Word)
    (h : accessOffset s.params addr bits = none) :
    hostStep (.regWrite addr bits v) s = .fault (.hostHazard .regAccess) ∧
      hostStep (.regRead addr bits) s = .fault (.hostHazard .regAccess) := by
  simp [hostStep, h]

theorem hostStep_regRead (s : State) (k : Nat) (h : k < 16) :
    hostStep (.regRead (s.params.regBase + 4 * k) 32) s =
      .next (s.observeReg (s.params.regBase + 4 * k) (4 * k)) := by
  simp [hostStep, accessOffset_of_multiple s.params (4 * k) (by omega) (by omega)]

theorem hostStep_regWrite_held (s : State) (k : Nat) (v : Word) (h : k < 16)
    (hw : s.registersHeld = true) :
    hostStep (.regWrite (s.params.regBase + 4 * k) 32 v) s =
      .fault (.hostHazard .regWriteBusy) := by
  simp [hostStep, accessOffset_of_multiple s.params (4 * k) (by omega) (by omega), hw]

theorem hostStep_regWrite_free (s : State) (k : Nat) (v : Word) (h : k < 16)
    (hw : s.registersHeld = false) :
    hostStep (.regWrite (s.params.regBase + 4 * k) 32 v) s = .next (writeOffset s (4 * k) v) := by
  simp [hostStep, accessOffset_of_multiple s.params (4 * k) (by omega) (by omega), hw]

theorem registersHeld_eq_false_of_not (s : State)
    (h : ¬ (s.status.state = .busy ∨
      (s.params.regWriteDuty = .untilStatusRead ∧ s.unread ≠ []))) : s.registersHeld = false :=
  Bool.eq_false_iff.mpr fun hw => h ((registersHeld_iff s).mp hw)

/-- R34: nothing is stored at a reserved offset, and 0 is read there. -/
theorem writeOffset_reserved (s : State) (k : Nat) (v : Word) (h : 10 ≤ k) (h' : k < 16) :
    writeOffset s (4 * k) v = s := by
  simp [writeOffset, regAt_reserved k h h']

theorem readOffset_reserved (s : State) (k : Nat) (h : 10 ≤ k) (h' : k < 16) :
    readOffset s (4 * k) = 0#32 := by
  simp [readOffset, regAt_reserved k h h']

/-! ### What a step does to the registers, STATUS, the latch and the parameters (R36 to R38)

Every step to a next state is of one of four kinds. -/

/-- A step that is none of R38's events: only argument registers may change, and those only while the
host may write them. -/
structure KeepsControl (s t : State) : Prop where
  status : t.status = s.status
  latch : t.latch = s.latch
  params : t.params = s.params
  regs : s.registersHeld = true → t.regs = s.regs

/-- What START leaves (R36, R37). -/
structure Starts (s t : State) : Prop where
  free : s.registersHeld = false
  status : t.status = { state := .busy, err := .none }
  latch : t.latch = s.regs
  params : t.params = s.params

/-- What the completion step leaves (R37, R302). -/
structure Ends (s t : State) : Prop where
  status : t.status = { state := .done, err := .none } ∨
    (t.status.state = .error ∧ verdict s.params s.latch = .error t.status.err)
  regs : t.regs = s.regs
  latch : t.latch = s.latch
  params : t.params = s.params

theorem Starts.not_busy {s t : State} (h : Starts s t) : s.status.state ≠ .busy :=
  ((registersHeld_eq_false s).mp h.free).1

theorem writeOffset_control (s : State) (offset : Nat) (v : Word) (hw : s.registersHeld = false) :
    KeepsControl s (writeOffset s offset v) ∨
      (offset = RegName.ctrl.offset ∧ v[0] = true ∧ Starts s (writeOffset s offset v)) := by
  rcases writeOffset_cases s offset v with ⟨regs, he⟩ | ⟨ho, hv, he⟩
  · rw [he]
    exact .inl ⟨rfl, rfl, rfl, fun held => by simp [hw] at held⟩
  · rw [he]
    exact .inr ⟨ho, hv, hw, rfl, rfl, rfl⟩

/-- A host step keeps the control state, or is START, or is reset. -/
theorem hostStep_control (op : HostOp) (s t : State) (h : hostStep op s = .next t) :
    KeepsControl s t ∨
      ((∃ v : Word, op = .regWrite (s.params.regBase + RegName.ctrl.offset) 32 v ∧ v[0] = true) ∧
        Starts s t) ∨
      (op = .reset ∧ t = s.resetEvent) := by
  rcases hostStep_cases op s t h with ⟨addr, bits, v, offset, rfl, ho, hw, rfl⟩ |
    ⟨_, _, _, _, _, rfl⟩ | ⟨_, _, _, _, _, rfl⟩ | ⟨_, _, _, _, _, rfl⟩ | ⟨_, _, rfl⟩ | ⟨_, _, rfl⟩ |
    hreset
  case inl =>
    rcases writeOffset_control s offset v hw with hk | ⟨hoff, hv, hst⟩
    · exact .inl hk
    · obtain ⟨rfl, rfl, _, _⟩ := accessOffset_eq_some _ _ _ _ ho
      exact .inr (.inl ⟨⟨v, by rw [hoff], hv⟩, hst⟩)
  case inr.inr.inr.inr.inr.inr => exact .inr (.inr hreset)
  all_goals exact .inl ⟨rfl, rfl, rfl, fun _ => rfl⟩

theorem completeCommand_ends (s t : State) (h : completeCommand s = .next t) : Ends s t := by
  rcases completeCommand_cases s with ⟨code, hv, he⟩ | ⟨i, _, _, _, he⟩
  · obtain rfl := Host.Outcome.next.inj (he.symm.trans h)
    exact ⟨.inr ⟨rfl, hv⟩, rfl, rfl, rfl⟩
  · obtain rfl := Host.Outcome.next.inj (he.symm.trans h)
    exact ⟨.inl rfl, rfl, rfl, rfl⟩

/-- Everything a step can do to the control state, and who does it. -/
theorem step_control (s t : State) (h : step s = .next t) :
    KeepsControl s t ∨
      (nextAgent s = .host ∧
        (∃ (v : Word) (rest : List HostOp),
          s.hostQueue = .regWrite (s.params.regBase + RegName.ctrl.offset) 32 v :: rest ∧
            v[0] = true) ∧
        Starts s t) ∨
      (s.status.state = .busy ∧ nextAgent s = .engine ∧ Ends s t) ∨
      (nextAgent s = .host ∧ (∃ rest, s.hostQueue = .reset :: rest) ∧
        t.status = { state := .idle, err := .none } ∧ t.params = s.params) := by
  rcases step_cases s t h with rfl | ⟨op, rest, ha, hq, hst⟩ | ⟨ha, hb, hc⟩
  · exact .inl ⟨rfl, rfl, rfl, fun _ => rfl⟩
  · -- taking the operation and the environment's choice off their lists changes no control state
    rcases hostStep_control op _ t hst with hk | ⟨⟨v, rfl, hv⟩, hs⟩ | ⟨rfl, rfl⟩
    · exact .inl ⟨hk.status, hk.latch, hk.params, hk.regs⟩
    · exact .inr (.inl ⟨ha, ⟨v, rest, hq, hv⟩, hs.free, hs.status, hs.latch, hs.params⟩)
    · exact .inr (.inr (.inr ⟨ha, ⟨rest, hq⟩, rfl, rfl⟩))
  · obtain ⟨hstatus, hregs, hlatch, hparams⟩ := completeCommand_ends _ t hc
    exact .inr (.inr (.inl ⟨hb, ha, hstatus, hregs, hlatch, hparams⟩))

/-! ### The invariant, step by step -/

/-- The invariant does not speak of what the environment does or has read. -/
theorem State.Inv.environment {s : State} (h : s.Inv) (queue : List HostOp)
    (schedule : List Agent) (trace : List HostObs) :
    State.Inv { s with hostQueue := queue, schedule := schedule, trace := trace } :=
  ⟨h.memWf, h.memBelow, h.errIff, h.latchEq, h.unreadHead, h.running, h.idleNone, h.single⟩

theorem insideMemory_iff (p : Params) (addr count : Nat) :
    insideMemory p addr count = true ↔ count = 0 ∨ addr + count ≤ p.memSize := by
  simp [insideMemory]

/-- A host write inside the data memory keeps memory canonical and below MEM_SIZE (R60). -/
theorem State.Inv.memWrite {s : State} (h : s.Inv) (addr : Nat) (bytes : List Byte)
    (hin : insideMemory s.params addr bytes.length = true) :
    State.Inv { s with mem := s.mem.write addr bytes } where
  memWf := Memory.wf_write _ _ _ h.memWf
  memBelow := Memory.below_write _ _ _ _ h.memBelow
    (((insideMemory_iff _ _ _).mp hin).imp_left List.eq_nil_of_length_eq_zero)
  errIff := h.errIff
  latchEq := h.latchEq
  unreadHead := h.unreadHead
  running := h.running
  idleNone := h.idleNone
  single := h.single

theorem State.Inv.hostStep {s t : State} (h : s.Inv) (op : HostOp)
    (hst : hostStep op s = .next t) : t.Inv := by
  rcases hostStep_cases op s t hst with ⟨_, _, v, offset, _, _, hw, rfl⟩ |
    ⟨addr, _, offset, _, _, rfl⟩ | ⟨addr, bytes, _, hin, _, rfl⟩ | ⟨_, _, _, _, _, rfl⟩ |
    ⟨_, _, rfl⟩ | ⟨_, _, rfl⟩ | ⟨_, rfl⟩
  · exact h.writeOffset hw offset v
  · exact h.observeReg addr offset
  · exact h.memWrite addr bytes hin
  · exact h.environment _ _ _
  · exact h.observeReg _ _
  · exact (h.observeReg _ _).environment _ _ _
  · exact h.resetEvent

theorem State.Inv.completeCommand {s t : State} (h : s.Inv)
    (hc : completeCommand s = .next t) : t.Inv := by
  rcases completeCommand_cases s with ⟨code, hv, he⟩ | ⟨i, _, _, hr, he⟩
  · obtain rfl := Host.Outcome.next.inj (he.symm.trans hc)
    refine h.enterError code ?_
    rintro rfl
    exact verdict_error_ne_none _ _ hv
  · obtain rfl := Host.Outcome.next.inj (he.symm.trans hc)
    exact h.complete i hr

theorem State.Inv.step {s t : State} (h : s.Inv) (hst : step s = .next t) : t.Inv := by
  rcases step_cases s t hst with rfl | ⟨op, rest, _, _, hop⟩ | ⟨_, _, hc⟩
  · exact h.environment _ _ _
  · exact (h.environment rest s.schedule.tail s.trace).hostStep op hop
  · exact (h.environment s.hostQueue s.schedule.tail s.trace).completeCommand hc

/-! ### The engine's step (R37) -/

theorem nextAgent_eq_engine (s : State) (hb : s.status.state = .busy)
    (hs : s.schedule = [] ∨ ∃ rest, s.schedule = .engine :: rest) : nextAgent s = .engine := by
  rcases hs with hs | ⟨rest, hs⟩ <;> simp [nextAgent, hs, hb]

theorem completeCommand_of_decode (s : State) (i : Instr) (hd : decode s.latch.cmd = .ok i) :
    completeCommand s = exec i s := by
  simp [completeCommand, hd]

end Sys2Proof.Machine

/-! ### The statements -/

/-- Settles O58: each of the three kinds of step keeps the invariant. -/
theorem everyStepKeepsTheInvariant : Obligations.EveryStepKeepsTheInvariant :=
  fun _ _ hinv hst => hinv.step hst

/-- Settles O41: a read of a legal offset is `observeReg`, whose observation is `readOffset`. -/
theorem registerReadsReturnTheirValues : Obligations.RegisterReadsReturnTheirValues := by
  intro s reads
  have slot : ∀ k v, k < 16 → readOffset s (4 * k) = v → reads (4 * k) v := fun k v hk hv =>
    ⟨_, hostStep_regRead s k hk, by rw [observeReg_trace, hv], rfl, rfl, rfl, rfl, rfl, rfl, rfl⟩
  exact ⟨slot 0 _ (by decide) rfl, slot 1 _ (by decide) rfl, slot 2 _ (by decide) rfl,
    slot 3 _ (by decide) rfl, slot 4 _ (by decide) rfl, slot 5 _ (by decide) rfl,
    slot 6 _ (by decide) rfl, slot 7 _ (by decide) rfl, slot 8 _ (by decide) rfl,
    slot 9 _ (by decide) rfl, fun k hk hk' => slot k _ hk' (readOffset_reserved s k hk hk')⟩

/-- Settles O42, by whether the access is legal and whether the host must leave the registers alone. -/
theorem registerAccessRules : Obligations.RegisterAccessRules := by
  intro s held
  refine ⟨fun addr bits v hbad => ?_, fun hheld k v hk => ?_, fun hfree v => ?_⟩
  · exact hostStep_access_illegal s addr bits v (accessOffset_eq_none _ _ _ hbad)
  · exact ⟨hostStep_regWrite_held s k v hk ((registersHeld_iff s).mpr hheld),
      _, hostStep_regRead s k hk, rfl⟩
  · have stored := fun k hk =>
      hostStep_regWrite_free s k v hk (registersHeld_eq_false_of_not s hfree)
    refine ⟨stored 1 (by decide), stored 2 (by decide), stored 3 (by decide),
      stored 4 (by decide), stored 5 (by decide), stored 6 (by decide), stored 7 (by decide),
      stored 0 (by decide), stored 9 (by decide), fun k hk hk' => ?_⟩
    rw [stored k hk', writeOffset_reserved s k v hk hk']

/-- Settles O45: CTRL is the slot at 4 * 8, where a permitted write is `State.start` or nothing. -/
theorem startLatchesTheArguments : Obligations.StartLatchesTheArguments := by
  intro s v wr held
  have ctrl : writeOffset s (4 * 8) v = if v[0] then s.start else s := rfl
  refine ⟨fun hfree hv => ?_, fun hfree hv => ?_, fun hheld => ?_, rfl⟩
  · refine (hostStep_regWrite_free s 8 v (by decide) (registersHeld_eq_false_of_not s hfree)).trans ?_
    rw [ctrl, if_pos hv]
    rfl
  · refine (hostStep_regWrite_free s 8 v (by decide) (registersHeld_eq_false_of_not s hfree)).trans ?_
    simp [ctrl, hv]
  · exact hostStep_regWrite_held s 8 v (by decide) ((registersHeld_iff s).mpr hheld)

/-- Settles O46, by the four kinds of step. -/
theorem onlyThreeEventsWriteStatus : Obligations.OnlyThreeEventsWriteStatus := by
  intro s t hst
  rcases step_control s t hst with hk | ⟨ha, hop, hs⟩ | ⟨hb, ha, he⟩ | ⟨ha, ⟨rest, hq⟩, hidle, _⟩
  · exact .inl hk.status
  · exact .inr (.inl ⟨hs.not_busy, ha, hop, hs.status, hs.latch⟩)
  · exact .inr (.inr (.inl ⟨hb, ha, he.status⟩))
  · exact .inr (.inr (.inr ⟨rest, hq, ha, hidle⟩))

/-- Settles O47, by the four kinds of step. -/
theorem onlyStartAndResetWriteTheLatch : Obligations.OnlyStartAndResetWriteTheLatch := by
  intro s t hst
  rcases step_control s t hst with hk | ⟨ha, hop, hs⟩ | ⟨_, _, he⟩ | ⟨ha, ⟨rest, hq⟩, hidle, hp⟩
  · exact ⟨hk.params, .inl hk.latch⟩
  · exact ⟨hs.params, .inr (.inl ⟨hs.not_busy, ha, hop, by rw [hs.status], hs.latch⟩)⟩
  · exact ⟨he.params, .inl he.latch⟩
  · exact ⟨hp, .inr (.inr ⟨rest, hq, ha, by rw [hidle]⟩)⟩

/-- Settles O48, by the four kinds of step: START is not enabled while the registers are held. -/
theorem registersAreStableWhileBusy : Obligations.RegistersAreStableWhileBusy := by
  intro s t hst hheld hnoreset
  have hw : s.registersHeld = true := (registersHeld_iff s).mpr hheld
  rcases step_control s t hst with hk | ⟨_, _, hs⟩ | ⟨_, _, he⟩ | ⟨ha, ⟨rest, hq⟩, _, _⟩
  · exact ⟨hk.regs hw, hk.latch⟩
  · exact absurd (hw.symm.trans hs.free) (by decide)
  · exact ⟨he.regs, he.latch⟩
  · simp [ha, hq] at hnoreset

/-- Settles O5: the engine moves, and its step is the completion of the decoded operation. -/
theorem stepRunsTheDecodedCommand : Obligations.StepRunsTheDecodedCommand := by
  intro s i hb hs hd
  rw [step_engine_busy s (nextAgent_eq_engine s hb hs) hb]
  exact completeCommand_of_decode _ i hd

/-- Settles O40, field by field; the numbers are those of `EngineState.code` and `ErrCode.code`. -/
theorem statusWordHoldsItsFields : Obligations.StatusWordHoldsItsFields := by
  intro st
  refine ⟨?_, st.word_low_zeros, ?_, st.word_high_zeros, ?_⟩
  · rw [st.word_state]
    cases st.state <;> rfl
  · rw [st.word_err]
    cases st.err <;> rfl
  · rw [st.word_err]
    exact st.err.code_le_six

/-- Settles O56, register by register and by the law of the reserved offsets. -/
theorem resetStateReadsAsTheTable : Obligations.ResetStateReadsAsTheTable := by
  refine ⟨rfl, fun r hr => ?_, fun k hk hk' => readOffset_reserved _ k hk hk', rfl⟩
  cases r
  case id => exact absurd rfl hr
  all_goals rfl

/-- Settles O57: memory and the list of unread commands are empty, and the host may write registers. -/
theorem resetStateMeetsTheInvariant : Obligations.ResetStateMeetsTheInvariant where
  memWf := reset_mem_wf
  memBelow := rfl
  errIff := by decide
  latchEq := fun _ => rfl
  unreadHead := fun h => absurd rfl h
  running := fun h => nomatch h
  idleNone := fun _ => rfl
  single := fun _ => Nat.zero_le 1

end

section
/-! PROOFS of what a command reads and leaves in the data memory (20_memory.md): first the facts about
writing, completing and the host's steps, each said once; then the statements, by the theorem that settles
each. -/

open Sys2Proof Sys2Proof.Machine

namespace Sys2Proof.Machine

/-! ### Completing an accepted command (R67, R69, R74) -/

theorem Memory.read_write_write (m : Memory) (a : Nat) (bs : List Byte) (x : Nat) :
    ((m.write a bs).write a bs).read x = (m.write a bs).read x := by
  rw [Memory.read_write (m.write a bs)]
  split
  next h => rw [Memory.read_write, dif_pos h]
  next => rfl

theorem Memory.write_write (m : Memory) (a : Nat) (bs : List Byte) (hm : m.wf = true) :
    (m.write a bs).write a bs = m.write a bs :=
  have hw := Memory.wf_write m a bs hm
  Memory.eq_of_read_eq _ _ (Memory.wf_write _ a bs hw) hw (Memory.read_write_write m a bs)

/-- In canonical memory, storing the same raster a second time leaves the same state (R69). -/
theorem complete_complete (s : State) (raster : List Byte) (hm : s.mem.wf = true) :
    (s.complete raster).complete raster = s.complete raster := by
  simp [State.complete, Memory.write_write _ _ _ hm]

/-- Byte `k` of the destination after the completion is byte `k` of the raster (R67). -/
theorem complete_read_destination (s : State) (raster : List Byte) (k : Nat)
    (hk : k < raster.length) :
    (s.complete raster).mem.read (s.latch.dstBase.toNat + k) = raster[k] :=
  Memory.read_write_inside _ _ _ _ hk

/-- Of an accepted command, no source byte is a destination byte (R70, R301). -/
theorem State.Accepts.source_outside_destination {s : State} {need : Nat} (h : s.Accepts need)
    (k : Nat) (hk : k < need) :
    s.latch.srcBase.toNat + k < s.latch.dstBase.toNat ∨
      s.latch.dstBase.toNat + needDst s.latch ≤ s.latch.srcBase.toNat + k := by
  obtain ⟨_, _, _, _, hmeet⟩ := h
  unfold needDst
  omega

theorem complete_read_source (i : Instr) (s : State) (h : s.Accepts (needSrc i s.latch)) (k : Nat)
    (hk : k < needSrc i s.latch) :
    (s.complete (rasterOf i s)).mem.read (s.latch.srcBase.toNat + k) =
      s.mem.read (s.latch.srcBase.toNat + k) :=
  Memory.read_write_outside _ _ _ _ <| by
    rw [rasterOf_length]
    exact h.source_outside_destination k hk

/-- The source survives the completion, so the completed state gives the same raster again. -/
theorem rasterOf_complete (i : Instr) (s : State) (h : s.Accepts (needSrc i s.latch)) :
    rasterOf i (s.complete (rasterOf i s)) = rasterOf i s := by
  have source : rasterOf i s = rasterOf i { s with mem := (s.complete (rasterOf i s)).mem } :=
    rasterOf_congr i s _ fun k hk => (complete_read_source i s h k hk).symm
  exact (rasterOf_eq_of_eq i (s.complete (rasterOf i s)) { s with mem := _ } rfl rfl rfl).trans
    source.symm

/-! ### What a running command's bytes can suffer (R68, R344) -/

/-- Everything a host step can do to memory: nothing, a write that meets no guarded region, or reset. -/
theorem hostStep_mem (op : HostOp) (s t : State) (h : hostStep op s = .next t) :
    t.mem = s.mem ∨
      (∃ addr bytes, s.memHazard addr bytes.length = false ∧ t.mem = s.mem.write addr bytes) ∨
      t = s.resetEvent := by
  rcases hostStep_cases op s t h with ⟨_, _, v, offset, _, _, _, rfl⟩ | ⟨_, _, _, _, _, rfl⟩ |
    ⟨addr, bytes, _, _, hz, rfl⟩ | ⟨_, _, _, _, _, rfl⟩ | ⟨_, _, rfl⟩ | ⟨_, _, rfl⟩ | ⟨_, hreset⟩
  case inl => exact .inl (writeOffset_mem s offset v)
  case inr.inr.inl => exact .inr (.inl ⟨addr, bytes, hz, rfl⟩)
  case inr.inr.inr.inr.inr.inr => exact .inr (.inr hreset)
  all_goals exact .inl rfl

/-- A host write that the duty of R344(b), (c) allows changes no byte of the running command's regions. -/
theorem read_write_of_not_memHazard (s : State) (i : Instr) (hb : s.status.state = .busy)
    (hv : verdict s.params s.latch = .ok i) (addr : Nat) (bytes : List Byte)
    (hz : s.memHazard addr bytes.length = false) (x : Nat)
    (hx : (s.latch.srcBase.toNat ≤ x ∧ x < s.latch.srcBase.toNat + needSrc i s.latch) ∨
      (s.latch.dstBase.toNat ≤ x ∧ x < s.latch.dstBase.toNat + needDst s.latch)) :
    (s.mem.write addr bytes).read x = s.mem.read x := by
  refine Memory.read_write_outside _ _ _ _ ?_
  by_contra hin
  have hazard : s.memHazard addr bytes.length = true :=
    (memHazard_iff s addr bytes.length).mpr
      ⟨s.latch, i, x, .inl ⟨hb, rfl⟩, hv, ⟨by omega, by omega⟩, hx⟩
  exact absurd (hazard.symm.trans hz) (by decide)

theorem completeCommand_not_busy (s t : State) (h : completeCommand s = .next t) :
    t.status.state ≠ .busy := by
  rcases (completeCommand_ends s t h).status with hdone | ⟨herror, _⟩
  · simp [hdone]
  · simp [herror]

end Sys2Proof.Machine

/-! ### The statements -/

/-- Settles O36: both runs store the raster of the same source bytes. -/
theorem outputDependsOnSourceBytesOnly : Obligations.OutputDependsOnSourceBytesOnly := by
  intro i s m' hacc hsame
  have hraster : rasterOf i s = rasterOf i { s with mem := m' } := rasterOf_congr i s m' hsame
  refine ⟨_, _, exec_of_accepts i s hacc, exec_of_accepts i { s with mem := m' } hacc, rfl,
    fun k hk => ?_⟩
  rw [← hraster]
  have hlt : k < (rasterOf i s).length := (rasterOf_length i s).symm ▸ hk
  exact (complete_read_destination s _ k hlt).trans
    (complete_read_destination { s with mem := m' } _ k hlt).symm

/-- Settles O37: the second run stores the same raster over the one that stands there. -/
theorem decodingAgainChangesNothing : Obligations.DecodingAgainChangesNothing := by
  intro i s t hacc hex
  obtain rfl : s.complete (rasterOf i s) = t :=
    Host.Outcome.next.inj ((exec_of_accepts i s hacc).symm.trans hex)
  have again := exec_of_accepts i (s.complete (rasterOf i s)) hacc
  rw [rasterOf_complete i s hacc] at again
  refine ⟨_, again, rfl, fun addr => Memory.read_write_write _ _ _ addr, fun hwf => ?_⟩
  exact complete_complete s _ hwf

/-- Settles O51, by the kinds of step: the completion and reset end BUSY, and an allowed host write
meets neither region. -/
theorem noPartialRasterIsSeen : Obligations.NoPartialRasterIsSeen := by
  intro s t i hb hst htb hv x hx
  rcases step_cases s t hst with rfl | ⟨op, rest, _, _, hop⟩ | ⟨_, _, hc⟩
  · rfl
  · rcases hostStep_mem op _ t hop with hm | ⟨addr, bytes, hz, hm⟩ | rfl
    · rw [hm]
    · rw [hm]
      exact read_write_of_not_memHazard _ i hb hv addr bytes hz x hx
    · simp at htb
  · exact absurd htb (completeCommand_not_busy _ t hc)

end

section
/-! PROOFS of the command word and the host-program forms (30_encoding.md): first what the decoder answers
and what each step of a DECODE does, each said once; then the statements, by the theorem that settles
each. -/

open Sys2Proof Sys2Proof.Machine

namespace Sys2Proof

/-! ### The command word (R90 to R94) -/

theorem Laws.EncodedWord.holds (i : Instr) : Laws.EncodedWord.Statement i :=
  match i with
  | .pvrtc1_2bpp => pvrtc1_2bpp
  | .pvrtc1_4bpp => pvrtc1_4bpp
  | .pvrtc2_2bpp => pvrtc2_2bpp
  | .pvrtc2_4bpp => pvrtc2_4bpp
  | .l8 => l8
  | .a8 => a8
  | .r8 => r8
  | .l8a8 => l8a8
  | .r8g8 => r8g8
  | .r5g6b5 => r5g6b5
  | .r5g5b5a1 => r5g5b5a1
  | .r4g4b4a4 => r4g4b4a4
  | .r16 => r16
  | .r8g8b8 => r8g8b8
  | .r8g8b8a8 => r8g8b8a8
  | .b8g8r8a8 => b8g8r8a8
  | .r10g10b10a2 => r10g10b10a2
  | .r16g16 => r16g16
  | .r32 => r32
  | .r16g16b16 => r16g16b16
  | .r16g16b16a16 => r16g16b16a16
  | .r32g32 => r32g32
  | .r32g32b32 => r32g32b32
  | .r32g32b32a32 => r32g32b32a32

theorem decode_encode (i : Instr) : decode (encode i) = .ok i := by
  obtain ⟨_, _, _, _, hdec⟩ := Laws.EncodedWord.holds i
  exact hdec

/-- No operation has one of R93's unassigned OP values. -/
theorem Instr.op_assigned (i : Instr) : i.op ≤ 0x03#8 ∨ (0x10#8 ≤ i.op ∧ i.op ≤ 0x23#8) := by
  obtain ⟨_, _, _, hop, _⟩ := Laws.EncodedWord.holds i
  exact hop

theorem rsvdField_eq_zero_iff (w : Word) : rsvdField w = 0 ↔ w.extractLsb' 8 24 = 0#24 := by
  rw [← BitVec.toNat_inj, BitVec.extractLsb'_toNat, Nat.shiftRight_eq_div_pow, rsvdField,
    BitVec.toNat_ofNat]
  have := w.isLt
  omega

theorem opField_eq (w : Word) : opField w = (w.extractLsb' 0 8).toNat := by
  simp [opField]

/-- The opcode map inverts the OP column (R92). -/
theorem instrOfOp_eq_some_iff (op : Nat) (i : Instr) : instrOfOp op = some i ↔ op = i.op.toNat := by
  constructor
  · intro h
    unfold instrOfOp at h
    split at h <;> cases h <;> rfl
  · rintro rfl
    cases i <;> rfl

theorem instrOfOp_unassigned (op : Byte)
    (h : (0x04#8 ≤ op ∧ op ≤ 0x0F#8) ∨ 0x24#8 ≤ op) : instrOfOp op.toNat = none := by
  rw [Option.eq_none_iff_forall_ne_some]
  intro i hi
  obtain rfl := BitVec.eq_of_toNat_eq ((instrOfOp_eq_some_iff _ _).mp hi)
  have := i.op_assigned
  bv_omega

theorem decode_of_reserved (w : Word) (h : w.extractLsb' 8 24 ≠ 0#24) :
    decode w = .error .illegalCmd :=
  if_pos (mt (rsvdField_eq_zero_iff w).mp h)

theorem decode_of_unassigned (w : Word) (h : w.extractLsb' 8 24 = 0#24)
    (hop : instrOfOp (opField w) = none) : decode w = .error .unsupported := by
  simp [decode, (rsvdField_eq_zero_iff w).mpr h, hop]

theorem decode_eq_ok_iff (w : Word) (i : Instr) :
    decode w = .ok i ↔ rsvdField w = 0 ∧ instrOfOp (opField w) = some i := by
  unfold decode
  split
  next hrsvd => simp [hrsvd]
  next hrsvd => split <;> simp_all

/-- R91's class of OP[7:4] = 0. -/
theorem pvrtc_of_class (i : Instr) (h : i.op.extractLsb' 4 4 = 0#4) :
    i = .pvrtc1_2bpp ∨ i = .pvrtc1_4bpp ∨ i = .pvrtc2_2bpp ∨ i = .pvrtc2_4bpp := by
  cases i
  case pvrtc1_2bpp | pvrtc1_4bpp | pvrtc2_2bpp | pvrtc2_4bpp => simp
  all_goals exact absurd h (by decide)

end Sys2Proof

namespace Sys2Proof.Machine

/-! ### Writes to the registers other than CTRL (R35(c), R106) -/

/-- What a register reads as after a write: ID and STATUS ignore the write (R35(c)). -/
theorem readReg_writeReg (s : State) (r q : RegName) (v : Word) (hr : r ≠ .ctrl) :
    readReg (writeReg s r v) q =
      if q = r ∧ r ≠ .id ∧ r ≠ .status then v else readReg s q := by
  cases r
  case ctrl => exact absurd rfl hr
  all_goals cases q <;> rfl

/-- Only the argument registers change. -/
theorem writeReg_with_regs (s : State) (r : RegName) (v : Word) (regs : Args) (hr : r ≠ .ctrl) :
    { writeReg s r v with regs := regs } = { s with regs := regs } := by
  cases r
  case ctrl => exact absurd rfl hr
  all_goals rfl

theorem writeReg_registersHeld (s : State) (r : RegName) (v : Word) (hr : r ≠ .ctrl) :
    (writeReg s r v).registersHeld = s.registersHeld := by
  have h := congrArg State.registersHeld (writeReg_with_regs s r v s.regs hr)
  exact h

/-- The argument registers are what the window shows of them. -/
theorem regs_eq_of_readReg_eq (s t : State) (h : ∀ q, readReg s q = readReg t q) :
    s.regs = t.regs := by
  have hcmd : s.regs.cmd = t.regs.cmd := h .cmd
  have hwidth : s.regs.width = t.regs.width := h .width
  have hheight : s.regs.height = t.regs.height := h .height
  have hsrcBase : s.regs.srcBase = t.regs.srcBase := h .srcBase
  have hsrcLen : s.regs.srcLen = t.regs.srcLen := h .srcLen
  have hdstBase : s.regs.dstBase = t.regs.dstBase := h .dstBase
  have hdstLen : s.regs.dstLen = t.regs.dstLen := h .dstLen
  cases hs : s.regs
  cases ht : t.regs
  simp_all

theorem writeReg_comm (s : State) (r r' : RegName) (v v' : Word) (hne : r ≠ r')
    (hr : r ≠ .ctrl) (hr' : r' ≠ .ctrl) :
    writeReg (writeReg s r v) r' v' = writeReg (writeReg s r' v') r v := by
  have hregs : (writeReg (writeReg s r v) r' v').regs = (writeReg (writeReg s r' v') r v).regs := by
    refine regs_eq_of_readReg_eq _ _ fun q => ?_
    rw [readReg_writeReg _ r' q v' hr', readReg_writeReg s r q v hr,
      readReg_writeReg _ r q v hr, readReg_writeReg s r' q v' hr']
    by_cases hq : q = r
    · have hq' : q ≠ r' := hq ▸ hne
      simp [hq']
    · simp [hq]
  calc writeReg (writeReg s r v) r' v'
      = { s with regs := (writeReg (writeReg s r v) r' v').regs } :=
        (writeReg_with_regs _ r' v' _ hr').trans (writeReg_with_regs s r v _ hr)
    _ = { s with regs := (writeReg (writeReg s r' v') r v).regs } := by rw [hregs]
    _ = writeReg (writeReg s r' v') r v :=
        ((writeReg_with_regs _ r v _ hr).trans (writeReg_with_regs s r' v' _ hr')).symm

/-- A write to CTRL looks at bit 0 alone (R32, R94). -/
theorem writeReg_ctrl_bit_zero (s : State) (v : Word) :
    writeReg s .ctrl v = writeReg s .ctrl (v &&& 1#32) := by
  simp [writeReg]

/-! ### The host's and the engine's steps of a DECODE (R105, R106) -/

theorem hostStep_poll (s : State) :
    hostStep .poll s = .next { s with
      trace := .regValue (s.params.regBase + 0x24) s.status.word :: s.trace
      unread := if s.status.state = .busy then s.unread else []
      hostQueue := if s.status.state = .done ∨ s.status.state = .error then s.hostQueue
        else .poll :: s.hostQueue } := by
  have hword : readOffset s 0x24 = s.status.word := rfl
  by_cases hend : s.status.state = .done ∨ s.status.state = .error <;>
    simp [hostStep, hend, State.observeReg, RegName.offset, hword]

theorem writeReg_with_hostQueue (s : State) (r : RegName) (v : Word) (queue : List HostOp) :
    { writeReg s r v with hostQueue := queue } = writeReg { s with hostQueue := queue } r v := by
  cases r
  case ctrl =>
    simp only [writeReg]
    split <;> rfl
  all_goals rfl

/-- The host's operations for a list of register writes (R105). -/
def hostWRs (p : Params) (writes : List (RegName × Word)) : List HostOp :=
  writes.map fun w => hostWR p w.1 w.2

/-- The state after a list of register writes. -/
def writeRegs (s : State) : List (RegName × Word) → State
  | [] => s
  | (r, v) :: writes => writeRegs (writeReg s r v) writes

/-- The register writes of a DECODE before its START (R106). -/
def argumentWrites (a : Args) : List (RegName × Word) :=
  [(.cmd, a.cmd), (.width, a.width), (.height, a.height), (.srcBase, a.srcBase),
    (.srcLen, a.srcLen), (.dstBase, a.dstBase), (.dstLen, a.dstLen)]

theorem hostDecode_eq (p : Params) (a : Args) :
    hostDecode p a = hostWRs p (argumentWrites a) ++ [hostWR p .ctrl 1, .poll] := rfl

theorem writeRegs_argumentWrites (s : State) (a : Args) :
    writeRegs s (argumentWrites a) = { s with regs := a } := rfl

theorem argumentWrites_ne_ctrl (a : Args) : ∀ w ∈ argumentWrites a, w.1 ≠ .ctrl := by
  simp [argumentWrites]

/-- A run takes register writes other than START one by one (R35(c), R105). -/
theorem run_hostWRs (writes : List (RegName × Word)) (s : State) (rest : List HostOp) (k : Nat)
    (hfree : s.registersHeld = false) (hsched : s.schedule = [])
    (hargs : ∀ w ∈ writes, w.1 ≠ .ctrl)
    (hq : s.hostQueue = hostWRs s.params writes ++ rest) :
    core.run (writes.length + k) s = core.run k (writeRegs { s with hostQueue := rest } writes) := by
  induction writes generalizing s with
  | nil =>
    obtain rfl : s.hostQueue = rest := hq
    rw [List.length_nil, Nat.zero_add]
    rfl
  | cons w writes ih =>
    obtain ⟨r, v⟩ := w
    have hr : r ≠ .ctrl := hargs (r, v) (by simp)
    let queue := hostWRs s.params writes ++ rest
    let next : State := writeReg { s with hostQueue := queue } r v
    have hstep : step s = .next next := step_hostWR s r v queue hfree hsched hq
    have hfree' : next.registersHeld = false := (writeReg_registersHeld _ r v hr).trans hfree
    have hrun : core.run (writes.length + k) next = _ :=
      ih next hfree' (by simpa [next] using hsched) (fun w hw => hargs w (by simp [hw]))
        (by simp [next, queue])
    rw [List.length_cons, Nat.add_right_comm, run_succ_of_next core _ s next hstep, hrun,
      writeReg_with_hostQueue]
    rfl

theorem completeCommand_of_decode_error (s : State) (e : DecodeError)
    (hd : decode s.latch.cmd = .error e) :
    completeCommand s = .next (s.enterError (errOfDecode e)) := by
  simp [completeCommand, hd]

theorem completeCommand_of_rejected (s : State) (code : ErrCode)
    (h : verdict s.params s.latch = .error code) :
    completeCommand s = .next (s.enterError code) := by
  rcases completeCommand_cases s with ⟨code', hv, he⟩ | ⟨i, hv, _⟩
  · cases hv.symm.trans h
    exact he
  · cases hv.symm.trans h

theorem completeCommand_of_accepted (s : State) (i : Instr)
    (h : verdict s.params s.latch = .ok i) :
    completeCommand s = .next (s.complete (rasterOf i s)) := by
  rcases completeCommand_cases s with ⟨code, hv, _⟩ | ⟨j, hv, _, _, he⟩
  · cases hv.symm.trans h
  · cases hv.symm.trans h
    exact he

/-- The completion reads the latch, the memory and the parameters alone, and writes STATUS and memory
alone (R37, R301). -/
theorem completeCommand_congr (s s' t : State) (hl : s'.latch = s.latch) (hm : s'.mem = s.mem)
    (hp : s'.params = s.params) (h : completeCommand s = .next t) :
    completeCommand s' = .next { s' with status := t.status, mem := t.mem } := by
  have hverdict : verdict s'.params s'.latch = verdict s.params s.latch := by rw [hp, hl]
  rcases completeCommand_cases s with ⟨code, hv, he⟩ | ⟨i, hv, _, _, he⟩
  · obtain rfl := Host.Outcome.next.inj (he.symm.trans h)
    rw [completeCommand_of_rejected s' code (hverdict.trans hv), enterError_mem, ← hm]
    rfl
  · obtain rfl := Host.Outcome.next.inj (he.symm.trans h)
    rw [completeCommand_of_accepted s' i (hverdict.trans hv), rasterOf_eq_of_eq i s' s hl hm hp,
      complete_mem, ← hl, ← hm]
    rfl

/-- START, the completion and the POLL that reads its verdict (R37, R105). The completion is given in any
state `c` that latches the registers of `s` and has its memory and parameters. -/
theorem run_start_complete_poll (s c t : State) (rest : List HostOp)
    (hfree : s.registersHeld = false) (hsched : s.schedule = [])
    (hq : s.hostQueue = hostWR s.params .ctrl 1 :: .poll :: rest)
    (hl : c.latch = s.regs) (hm : c.mem = s.mem) (hp : c.params = s.params)
    (hc : completeCommand c = .next t) :
    core.run 3 s = .next { s with
      latch := s.regs
      status := t.status
      mem := t.mem
      hostQueue := rest
      unread := []
      trace := .regValue (s.params.regBase + 0x24) t.status.word :: s.trace } := by
  let started : State := { s with hostQueue := .poll :: rest }.start
  let completed : State := { started with status := t.status, mem := t.mem }
  have hend : t.status.state = .done ∨ t.status.state = .error :=
    (completeCommand_ends _ t hc).status.imp (congrArg Status.state) And.left
  have hbusy : t.status.state ≠ .busy := completeCommand_not_busy _ t hc
  have htail : { started with schedule := started.schedule.tail } = started := by
    simp [started, State.start, hsched]
  have hstart : step s = .next started := step_hostWR s .ctrl 1 (.poll :: rest) hfree hsched hq
  have hcomplete : step started = .next completed := by
    rw [step_engine_busy started (nextAgent_eq_engine started rfl (.inl hsched)) rfl, htail]
    exact completeCommand_congr c started t hl.symm hm.symm hp.symm hc
  have hpoll := step_host_cons completed .poll rest
    (by simp [nextAgent, completed, started, hsched, hbusy]) rfl
  rw [hostStep_poll] at hpoll
  rw [run_succ_of_next core _ s started hstart, run_succ_of_next core _ started completed hcomplete,
    run_succ_of_next core _ completed _ hpoll]
  simp [Host.Core.run, completed, started, State.start, hend, hbusy, hsched]

/-- The ten steps of a DECODE (R106). -/
theorem run_hostDecode (s t : State) (a : Args) (rest : List HostOp)
    (hfree : s.registersHeld = false) (hsched : s.schedule = [])
    (hq : s.hostQueue = hostDecode s.params a ++ rest)
    (hc : completeCommand { s with latch := a } = .next t) :
    core.run 10 s = .next { s with
      regs := a
      latch := a
      status := t.status
      mem := t.mem
      hostQueue := rest
      unread := []
      trace := .regValue (s.params.regBase + 0x24) t.status.word :: s.trace } := by
  let tail := hostWR s.params .ctrl 1 :: .poll :: rest
  have hq' : s.hostQueue = hostWRs s.params (argumentWrites a) ++ tail := by
    rw [hq, hostDecode_eq, List.append_assoc]
    rfl
  let written : State := { s with regs := a, hostQueue := tail }
  have hwrites : core.run (7 + 3) s = core.run 3 written :=
    run_hostWRs (argumentWrites a) s tail 3 hfree hsched (argumentWrites_ne_ctrl a) hq'
  exact hwrites.trans
    (run_start_complete_poll written { s with latch := a } t rest hfree hsched rfl rfl rfl rfl hc)

end Sys2Proof.Machine

/-! ### The statements -/

/-- Settles O53: the seven writes, START, the completion and the POLL in turn; the completion gives the
verdict of the arguments. -/
theorem decodePseudoOperationRunsTheCommand :
    Obligations.DecodePseudoOperationRunsTheCommand := by
  intro s a rest hidle hread hsched hq
  have hfree : s.registersHeld = false := (registersHeld_eq_false s).mpr ⟨hidle, hread⟩
  rcases completeCommand_cases { s with latch := a } with ⟨code, hv, hc⟩ | ⟨i, hv, _, _, hc⟩
  · refine ⟨_, _, run_hostDecode s _ a rest hfree hsched hq hc, hc, rfl, rfl, rfl, rfl, rfl, rfl,
      rfl, ?_⟩
    rw [show verdict s.params a = .error code from hv]
    exact ⟨rfl, rfl⟩
  · refine ⟨_, _, run_hostDecode s _ a rest hfree hsched hq hc, hc, rfl, rfl, rfl, rfl, rfl, rfl,
      rfl, ?_⟩
    rw [show verdict s.params a = .ok i from hv]
    rfl

/-- Settles O3, by the two fields of the word: the opcode map inverts the OP column. -/
theorem wordsDecodeByTheOpcodeMap : Obligations.WordsDecodeByTheOpcodeMap := by
  intro w i
  rw [decode_eq_ok_iff, rsvdField_eq_zero_iff, instrOfOp_eq_some_iff, opField_eq, BitVec.toNat_inj]

/-- Settles O6: the completion of a word with no operation is the error entry with its code. -/
theorem unassignedWordsEndInError : Obligations.UnassignedWordsEndInError := by
  refine ⟨fun s hb hs => ?_, writeReg_ctrl_bit_zero,
    fun s k v hk hk' => writeOffset_reserved s k v hk hk'⟩
  rw [step_engine_busy s (nextAgent_eq_engine s hb hs) hb]
  refine ⟨fun hrsvd => ?_, fun hrsvd hop => ?_⟩
  · exact completeCommand_of_decode_error { s with schedule := s.schedule.tail } _
      (decode_of_reserved _ hrsvd)
  · refine completeCommand_of_decode_error { s with schedule := s.schedule.tail } _
      (decode_of_unassigned _ hrsvd ?_)
    rw [opField_eq]
    exact instrOfOp_unassigned _ hop

/-- Settles O1, word by word. -/
theorem specWordsDecode : Obligations.SpecWordsDecode := by
  unfold Obligations.SpecWordsDecode
  decide

/-- Settles O2. -/
theorem decodeOfEncodeIsTheInstruction : Obligations.DecodeOfEncodeIsTheInstruction :=
  fun i _ => decode_encode i

/-- Settles O4: the class has four operations, each with its own variant and mode. -/
theorem opBitsChooseVariantAndMode : Obligations.OpBitsChooseVariantAndMode := by
  intro i s hclass
  rcases pvrtc_of_class i hclass with rfl | rfl | rfl | rfl <;> exact ⟨rfl, rfl⟩

/-- Settles O19: each half is a little-endian read of four bytes. -/
theorem wordsStandAtTheirOffsets : Obligations.WordsStandAtTheirOffsets := by
  intro m src v bpp nx ny x y off B
  have hoff : wordOffset { variant := v, bpp := bpp, nx := nx, ny := ny } x y = off := by
    cases v <;> rfl
  rw [readWord, hoff, Memory.readLE_four, Memory.readLE_four]
  rfl

/-- Settles O44. -/
theorem pollReadsStatusUntilTheEnd : Obligations.PollReadsStatusUntilTheEnd :=
  hostStep_poll

/-- Settles O52: every register reads the same after either order. -/
theorem argumentWritesCommute : Obligations.ArgumentWritesCommute :=
  writeReg_comm

end

section
/-! PROOFS of the pixel-format bank (40_pixel_formats.md): first how a channel widens or narrows to 8 bits,
what a channel of whole bytes keeps, and what an accepted command of the bank does, each said once; then the
statements, by the theorem that settles each. -/

open Sys2Proof Sys2Proof.Machine

namespace Sys2Proof.Machine

/-! ### Widening by replication (R144) -/

theorem rep8_one : ∀ v < 2, rep8 v 1 = 255 * v := by decide

theorem rep8_two : ∀ v < 4, rep8 v 2 = 85 * v := by decide

theorem rep8_three : ∀ v < 8, rep8 v 3 = 32 * v + 4 * v + v / 2 := by decide

/-- From 4 bits on, two copies of the value fill the byte. -/
theorem rep8_of_two_copies (v b : Nat) (h4 : 4 ≤ b) (h8 : b < 8) (hv : v < 2 ^ b) :
    rep8 v b = (v * 2 ^ b + v) / 2 ^ (b + b - 8) := by
  have copies : (v <<< b) ||| v = v * 2 ^ b + v := by
    rw [← Nat.shiftLeft_add_eq_or_of_lt hv, Nat.shiftLeft_eq]
  simp [rep8, rep8Loop, h8, show ¬ b + b < 8 by omega, copies, Nat.shiftRight_eq_div_pow]

theorem rep8_four (v : Nat) (hv : v < 16) : rep8 v 4 = 17 * v := by
  rw [rep8_of_two_copies v 4 (by decide) (by decide) hv]
  omega

theorem rep8_five (v : Nat) (hv : v < 32) : rep8 v 5 = 8 * v + v / 4 := by
  rw [rep8_of_two_copies v 5 (by decide) (by decide) hv]
  omega

theorem rep8_six (v : Nat) (hv : v < 64) : rep8 v 6 = 4 * v + v / 16 := by
  rw [rep8_of_two_copies v 6 (by decide) (by decide) hv]
  omega

theorem rep8_seven (v : Nat) (hv : v < 128) : rep8 v 7 = 2 * v + v / 64 := by
  rw [rep8_of_two_copies v 7 (by decide) (by decide) hv]
  omega

/-- The widened value starts with the bits of the value: of every width, by its closed form. -/
theorem rep8_top_bits (v b : Nat) (h1 : 1 ≤ b) (h8 : b < 8) (hv : v < 2 ^ b) :
    rep8 v b / 2 ^ (8 - b) = v := by
  interval_cases b
  · rw [rep8_one v hv]; omega
  · rw [rep8_two v hv]; omega
  · rw [rep8_three v hv]; omega
  · rw [rep8_four v hv]; omega
  · rw [rep8_five v hv]; omega
  · rw [rep8_six v hv]; omega
  · rw [rep8_seven v hv]; omega

theorem rep8_lt (v b : Nat) (h1 : 1 ≤ b) (h8 : b < 8) (hv : v < 2 ^ b) : rep8 v b < 2 ^ 8 := by
  have h : rep8 v b / 2 ^ (8 - b) < 2 ^ b := by rwa [rep8_top_bits v b h1 h8 hv]
  rwa [Nat.div_lt_iff_lt_mul (Nat.two_pow_pos _), ← Nat.pow_add,
    Nat.add_sub_cancel' h8.le] at h

/-! ### Normalisation to 8 bits (R143) -/

theorem n8_eight (v : Nat) : n8 v 8 = v := rfl

theorem n8_of_lt (v b : Nat) (h : b < 8) : n8 v b = rep8 v b := by
  rw [n8, if_neg h.ne, if_neg h.not_gt]

/-- From 8 bits on, the most significant 8 are kept. -/
theorem n8_of_ge (v b : Nat) (h : 8 ≤ b) : n8 v b = v / 2 ^ (b - 8) := by
  unfold n8
  split
  next hb => simp [hb]
  next hb => rw [if_pos (by omega), Nat.shiftRight_eq_div_pow]

theorem n8_lt (v b : Nat) (h1 : 1 ≤ b) (hv : v < 2 ^ b) : n8 v b < 2 ^ 8 := by
  rcases Nat.lt_or_ge b 8 with h8 | h8
  · rw [n8_of_lt v b h8]
    exact rep8_lt v b h1 h8 hv
  · rwa [n8_of_ge v b h8, Nat.div_lt_iff_lt_mul (Nat.two_pow_pos _), ← Nat.pow_add,
      Nat.add_sub_cancel' h8]

/-! ### Channels of whole bytes (R102) -/

/-- The most significant byte of a little-endian value is the last one read. -/
theorem Memory.readLE_top_byte (m : Memory) (p n : Nat) :
    m.readLE p (n + 1) / 256 ^ n = (m.read (p + n)).toNat := by
  induction n generalizing p with
  | zero => simp
  | succ n ih =>
    have hlow : (m.read p).toNat < 256 := (m.read p).isLt
    rw [Memory.readLE, Nat.pow_succ', ← Nat.div_div_eq_div_mul,
      Nat.add_mul_div_left _ _ (by decide), Nat.div_eq_of_lt hlow, Nat.zero_add, ih,
      Nat.add_right_comm, Nat.add_assoc]

/-- Of a channel of `n + 1` bytes only the most significant byte reaches the output. -/
theorem ofNat_n8_readLE (m : Memory) (p n : Nat) :
    BitVec.ofNat 8 (n8 (m.readLE p (n + 1)) (8 * (n + 1))) = m.read (p + n) := by
  rw [n8_of_ge _ _ (by omega), Nat.mul_add_one, Nat.add_sub_cancel, Nat.pow_mul,
    Memory.readLE_top_byte, BitVec.ofNat_toNat, BitVec.setWidth_eq]

theorem ofNat_n8_readLE_two (m : Memory) (p : Nat) :
    BitVec.ofNat 8 (n8 (m.readLE p 2) 16) = m.read (p + 1) :=
  ofNat_n8_readLE m p 1

theorem ofNat_n8_readLE_four (m : Memory) (p : Nat) :
    BitVec.ofNat 8 (n8 (m.readLE p 4) 32) = m.read (p + 3) :=
  ofNat_n8_readLE m p 3

/-! ### Commands of the bank (R149, R150) -/

theorem runBank_of_accepts (stride : Nat) (pixel : Memory → Nat → Rgba) (s : State)
    (h : s.Accepts (bankNeedSrc stride s.latch)) :
    runBank stride pixel s = .next (s.complete (bankRaster stride pixel s)) := by
  rw [runBank, runCommand, (regionError_eq_none s _).mpr h]

/-- An operation of the bank decodes its format when its pixel function reads the format's pixel off
the bytes at its address. -/
theorem formatDecodes_of_pixel {op stride : Nat} {i : Instr} (pixel : Memory → Nat → Rgba)
    {px : (Nat → Byte) → Rgba} (hword : encode i = BitVec.ofNat 32 op)
    (hexec : exec i = runBank stride pixel)
    (hpixel : ∀ m p, pixel m p = px fun k => m.read (p + k)) : FormatDecodes op i stride px := by
  refine ⟨hword, fun s h => ?_⟩
  simp only [← hpixel]
  refine ⟨_, ?_, holdsRaster_complete s _, sameOutside_write_raster _ _ _ _ _⟩
  rw [hexec]
  exact runBank_of_accepts stride pixel s h

end Sys2Proof.Machine

/-! ### The statements -/

/-- Settles O10, format by format: every channel is a byte of the pixel. -/
theorem eightBitFormatsDecode : Obligations.EightBitFormatsDecode := by
  refine ⟨formatDecodes_of_pixel pixelL8 rfl rfl fun m p => ?_,
    formatDecodes_of_pixel pixelA8 rfl rfl fun m p => ?_,
    formatDecodes_of_pixel pixelR8 rfl rfl fun m p => ?_,
    formatDecodes_of_pixel pixelL8A8 rfl rfl fun m p => ?_,
    formatDecodes_of_pixel pixelR8G8 rfl rfl fun m p => ?_,
    formatDecodes_of_pixel pixelR8G8B8 rfl rfl fun m p => ?_,
    formatDecodes_of_pixel pixelR8G8B8A8 rfl rfl fun m p => ?_,
    formatDecodes_of_pixel pixelB8G8R8A8 rfl rfl fun m p => ?_⟩
  · simp [pixelL8, Rgba.ofNat, n8_eight]
  · simp [pixelA8, Rgba.ofNat, n8_eight]
  · simp [pixelR8, Rgba.ofNat, n8_eight]
  · simp [pixelL8A8, Rgba.ofNat, n8_eight]
  · simp [pixelR8G8, Rgba.ofNat, n8_eight]
  · simp [pixelR8G8B8, Rgba.ofNat]
  · simp [pixelR8G8B8A8, Rgba.ofNat]
  · simp [pixelB8G8R8A8, Rgba.ofNat]

/-- Settles O11, format by format: the fields of the pixel word, each by the closed form of its width. -/
theorem packedFormatsDecode : Obligations.PackedFormatsDecode := by
  refine ⟨formatDecodes_of_pixel pixelR5G6B5 rfl rfl fun m p => ?_,
    formatDecodes_of_pixel pixelR5G5B5A1 rfl rfl fun m p => ?_,
    formatDecodes_of_pixel pixelR4G4B4A4 rfl rfl fun m p => ?_,
    formatDecodes_of_pixel pixelR10G10B10A2 rfl rfl fun m p => ?_⟩
  · simp (disch := omega) [pixelR5G6B5, Rgba.ofNat, bits, Memory.readLE_two, n8_of_lt, rep8_five,
      rep8_six]
  · simp (disch := omega) [pixelR5G5B5A1, Rgba.ofNat, bit, bits, Memory.readLE_two, n8_of_lt,
      rep8_five, rep8_one]
  · simp (disch := omega) [pixelR4G4B4A4, Rgba.ofNat, bits, Memory.readLE_two, n8_of_lt, rep8_four]
  · simp (disch := omega) [pixelR10G10B10A2, Rgba.ofNat, bits, Memory.readLE_four, n8_of_lt, n8_of_ge,
      rep8_two]

/-- Settles O12, format by format: every channel is two bytes wide. -/
theorem sixteenBitFormatsDecode : Obligations.SixteenBitFormatsDecode := by
  refine ⟨formatDecodes_of_pixel pixelR16 rfl rfl fun m p => ?_,
    formatDecodes_of_pixel pixelR16G16 rfl rfl fun m p => ?_,
    formatDecodes_of_pixel pixelR16G16B16 rfl rfl fun m p => ?_,
    formatDecodes_of_pixel pixelR16G16B16A16 rfl rfl fun m p => ?_⟩
  · simp [pixelR16, Rgba.ofNat, ofNat_n8_readLE_two]
  · simp [pixelR16G16, Rgba.ofNat, ofNat_n8_readLE_two, Nat.add_assoc]
  · simp [pixelR16G16B16, Rgba.ofNat, ofNat_n8_readLE_two, Nat.add_assoc]
  · simp [pixelR16G16B16A16, Rgba.ofNat, ofNat_n8_readLE_two, Nat.add_assoc]

/-- Settles O13, format by format: every channel is four bytes wide. -/
theorem thirtyTwoBitFormatsDecode : Obligations.ThirtyTwoBitFormatsDecode := by
  refine ⟨formatDecodes_of_pixel pixelR32 rfl rfl fun m p => ?_,
    formatDecodes_of_pixel pixelR32G32 rfl rfl fun m p => ?_,
    formatDecodes_of_pixel pixelR32G32B32 rfl rfl fun m p => ?_,
    formatDecodes_of_pixel pixelR32G32B32A32 rfl rfl fun m p => ?_⟩
  · simp [pixelR32, Rgba.ofNat, ofNat_n8_readLE_four]
  · simp [pixelR32G32, Rgba.ofNat, ofNat_n8_readLE_four, Nat.add_assoc]
  · simp [pixelR32G32B32, Rgba.ofNat, ofNat_n8_readLE_four, Nat.add_assoc]
  · simp [pixelR32G32B32A32, Rgba.ofNat, ofNat_n8_readLE_four, Nat.add_assoc]

/-- Settles O15, by the three cases of the width. -/
theorem normalisationIsEightBit : Obligations.NormalisationIsEightBit :=
  ⟨n8_eight, fun v b h => n8_of_ge v b h.le, n8_of_lt,
    fun v b h1 hv => Nat.le_of_lt_succ (n8_lt v b h1 hv)⟩

/-- Settles O14, width by width. -/
theorem replicationWidensEveryValue : Obligations.ReplicationWidensEveryValue :=
  ⟨rep8_one, rep8_two, rep8_three, rep8_four, rep8_five, rep8_six, rep8_seven,
    fun b h1 h7 => by interval_cases b <;> decide⟩

/-- Settles O16: a channel of at least 8 bits starts with the value, and a narrower one keeps its own
bits on top. -/
theorem channelsRoundTrip : Obligations.ChannelsRoundTrip := by
  intro c hc
  refine ⟨n8_eight c, ?_, ?_, ?_, fun b h1 h7 => ?_⟩
  · rw [n8_of_ge _ 10 (by decide)]
    omega
  · rw [n8_of_ge _ 16 (by decide)]
    omega
  · rw [n8_of_ge _ 32 (by decide)]
    omega
  · have hv : c / 2 ^ (8 - b) < 2 ^ b := by
      rwa [Nat.div_lt_iff_lt_mul (Nat.two_pow_pos _), ← Nat.pow_add,
        Nat.add_sub_cancel' (by omega)]
    rw [n8_of_lt _ b (by omega), rep8_top_bits _ b h1 (by omega) hv]

end

section
/-! PROOFS of the PVRTC geometry (41_pvrtc.md R203 to R205, R224, R228): the toroidal index and the
quadrant map as bijections of one axis, the bits of the twiddled index, and how far the words of a grid
reach. -/

open Sys2Proof Sys2Proof.Machine

namespace Sys2Proof.Machine

/-! ### One axis at a time (R205, R224) -/

/-- One solution on each axis is one solution on the pair of axes. -/
theorem existsUnique_pair {α β : Type} {p : α → Prop} {q : β → Prop} (hp : ∃! a, p a)
    (hq : ∃! b, q b) : ∃! t : α × β, p t.1 ∧ q t.2 := by
  obtain ⟨a, ha, hua⟩ := hp
  obtain ⟨b, hb, hub⟩ := hq
  exact ⟨(a, b), ⟨ha, hb⟩, fun t ⟨h1, h2⟩ => Prod.ext (hua _ h1) (hub _ h2)⟩

/-- The toroidal index written out on the indexes that tiles use. -/
theorem wrap_eq_ite (n : Nat) (i : Int) (hn : 0 < n) (h0 : -1 ≤ i) (h1 : i < n) :
    wrap i n = if i = -1 then n - 1 else i.toNat := by
  split
  next h => rw [h, wrap_neg_one n hn]
  next h => exact wrap_of_mem i n (by omega) h1

/-- On one axis, each word is the low word of exactly one tile: the last word of tile -1. -/
theorem existsUnique_wrap (n x : Nat) (hx : x < n) :
    ∃! i : Int, (-1 ≤ i ∧ i ≤ (n : Int) - 2) ∧ wrap i n = x := by
  by_cases hlast : x + 1 = n
  · refine ⟨-1, ⟨by omega, ?_⟩, fun i ⟨⟨h0, h1⟩, hi⟩ => ?_⟩
    · rw [wrap_neg_one n (by omega)]
      omega
    · by_contra hne
      rw [wrap_of_mem i n (by omega) (by omega)] at hi
      omega
  · refine ⟨x, ⟨by omega, wrap_natCast x n hx⟩, fun i ⟨⟨h0, h1⟩, hi⟩ => ?_⟩
    rw [wrap_eq_ite n i (by omega) h0 (by omega)] at hi
    split at hi <;> omega

/-- On one axis, each word is the high word of exactly one tile. -/
theorem existsUnique_wrap_succ (n x : Nat) (hx : x < n) :
    ∃! i : Int, (-1 ≤ i ∧ i ≤ (n : Int) - 2) ∧ wrap (i + 1) n = x := by
  have hval : ∀ i : Int, -1 ≤ i → i ≤ (n : Int) - 2 → wrap (i + 1) n = (i + 1).toNat :=
    fun i h0 h1 => wrap_of_mem (i + 1) n (by omega) (by omega)
  refine ⟨(x : Int) - 1, ⟨by omega, ?_⟩, ?_⟩
  · rw [hval _ (by omega) (by omega)]
    omega
  · rintro i ⟨⟨h0, h1⟩, hi⟩
    rw [hval i h0 h1] at hi
    omega

/-- On one axis, each covered scratch coordinate is where exactly one tile coordinate lands. -/
theorem existsUnique_scratchCoord (half n x : Nat) (hh : 0 < half) (hx : x < n * (2 * half)) :
    ∃! k : Int × Nat, (-1 ≤ k.1 ∧ k.1 ≤ (n : Int) - 2 ∧ k.2 < 2 * half) ∧
      scratchCoord (2 * half) n k.1 k.2 = x := by
  obtain ⟨hlow, hhigh, hcoord, hland⟩ := scratchCoord_tileCoord half n x hh hx
  refine ⟨tileCoord (2 * half) n x, ⟨⟨hlow, hhigh, hcoord⟩, hland⟩, ?_⟩
  rintro ⟨a, c⟩ ⟨⟨h0, h1, hc⟩, rfl⟩
  exact (tileCoord_scratchCoord half n a c hh (by omega) h0 h1 hc).symm

/-! ### The bits of the twiddled index (R203) -/

/-- Below `2 * sc` the bits of `x` and `y` take turns; above stand those of the longer axis. -/
theorem twiddle_testBit (nx ny x y j : Nat) :
    (twiddle nx ny x y).testBit j =
      if j < 2 * Nat.clog 2 (min nx ny) then
        if j % 2 = 0 then x.testBit (j / 2) else y.testBit (j / 2)
      else (if nx < ny then y else x).testBit (j - Nat.clog 2 (min nx ny)) := by
  have hmin : (if nx < ny then nx else ny) = min nx ny := (min_def_lt nx ny).symm
  obtain ⟨hsc, hbits⟩ := twiddleLoop_spec (min nx ny) x y (min nx ny) 0 0
    (by rw [Nat.zero_add]; exact Nat.lt_two_pow_self.le)
  simp only [pow_zero, Nat.mul_zero, Nat.zero_max] at hsc hbits
  unfold twiddle
  simp only [hmin, hsc, Nat.testBit_or, hbits, Nat.testBit_shiftLeft, Nat.testBit_shiftRight]
  generalize Nat.clog 2 (min nx ny) = sc
  by_cases hj : j < 2 * sc
  · simp [hj]
  · rw [if_neg hj, show sc + (j - 2 * sc) = j - sc by omega]
    simp [hj, show 2 * sc ≤ j by omega]

/-- On a grid of `2^i × 2^j` words the twiddled index has `i + j` bits, each of them a bit of `x` or `y`. -/
theorem twiddle_two_pow_testBit (i j x y k : Nat) :
    (twiddle (2 ^ i) (2 ^ j) x y).testBit k =
      if k < 2 * min i j then
        if k % 2 = 0 then x.testBit (k / 2) else y.testBit (k / 2)
      else (if i < j then y else x).testBit (k - min i j) := by
  have hclog : Nat.clog 2 (min (2 ^ i) (2 ^ j)) = min i j := by
    rw [← (pow_right_mono₀ (by decide : 1 ≤ 2)).map_min, Nat.clog_pow 2 _ (by decide)]
  simp only [twiddle_testBit, hclog, Nat.pow_lt_pow_iff_right (by decide : 1 < 2)]

theorem twiddle_two_pow_lt (i j x y : Nat) (hx : x < 2 ^ i) (hy : y < 2 ^ j) :
    twiddle (2 ^ i) (2 ^ j) x y < 2 ^ (i + j) := by
  refine Nat.lt_pow_two_of_testBit _ fun k hk => ?_
  rw [twiddle_two_pow_testBit, if_neg (by omega)]
  split
  · exact Nat.testBit_lt_two_pow (hy.trans_le (Nat.pow_le_pow_right (by decide) (by omega)))
  · exact Nat.testBit_lt_two_pow (hx.trans_le (Nat.pow_le_pow_right (by decide) (by omega)))

/-- The last word of such a grid has the index with all bits set. -/
theorem twiddle_two_pow_last (i j : Nat) :
    twiddle (2 ^ i) (2 ^ j) (2 ^ i - 1) (2 ^ j - 1) = 2 ^ (i + j) - 1 := by
  refine Nat.eq_of_testBit_eq fun k => ?_
  rw [twiddle_two_pow_testBit]
  split
  · split <;> simp only [Nat.testBit_two_pow_sub_one, decide_eq_decide] <;> omega
  · split <;> simp only [Nat.testBit_two_pow_sub_one, decide_eq_decide] <;> omega

/-- The twiddled indexes of a `2^i × 2^j` grid are exactly its word numbers, so the largest is the
last (R228). -/
theorem maxTwiddle_two_pow (i j : Nat) : 1 + maxTwiddle (2 ^ i) (2 ^ j) = 2 ^ (i + j) := by
  have hi := Nat.two_pow_pos i
  have hj := Nat.two_pow_pos j
  have hij := Nat.two_pow_pos (i + j)
  have hupper : maxTwiddle (2 ^ i) (2 ^ j) ≤ 2 ^ (i + j) - 1 :=
    maxTwiddle_le _ _ _ fun x y hx hy => Nat.le_sub_one_of_lt (twiddle_two_pow_lt i j x y hx hy)
  have hlast := twiddle_le_maxTwiddle (2 ^ i) (2 ^ j) (2 ^ i - 1) (2 ^ j - 1) (by omega) (by omega)
  rw [twiddle_two_pow_last] at hlast
  omega

/-! ### How far the words of a grid reach (R202, R228) -/

/-- Some word of the grid has the largest index. -/
theorem exists_twiddle_eq_maxTwiddle (nx ny : Nat) (hx : 0 < nx) (hy : 0 < ny) :
    ∃ x y, x < nx ∧ y < ny ∧ twiddle nx ny x y = maxTwiddle nx ny := by
  by_contra hnone
  have hbelow : ∀ x y, x < nx → y < ny → twiddle nx ny x y < maxTwiddle nx ny := fun x y h1 h2 =>
    (twiddle_le_maxTwiddle nx ny x y h1 h2).lt_of_ne fun h => hnone ⟨x, y, h1, h2, h⟩
  have hle : maxTwiddle nx ny ≤ maxTwiddle nx ny - 1 :=
    maxTwiddle_le _ _ _ fun x y h1 h2 => Nat.le_sub_one_of_lt (hbelow x y h1 h2)
  have hfirst := hbelow 0 0 hx hy
  omega

theorem pvrtcNeedSrc_of_empty (v : Variant) (bpp : Bpp) (a : Args)
    (h : a.width.toNat = 0 ∨ a.height.toNat = 0) : pvrtcNeedSrc v bpp a = 0 :=
  if_pos h

theorem needDst_of_empty (a : Args) (h : a.width.toNat = 0 ∨ a.height.toNat = 0) :
    needDst a = 0 := by
  rcases h with h | h <;> simp [needDst, h]

theorem pvrtcNeedSrc_pvrtc1 (bpp : Bpp) (a : Args) (hw : a.width.toNat ≠ 0)
    (hh : a.height.toNat ≠ 0) :
    pvrtcNeedSrc .pvrtc1 bpp a =
      8 * (1 + maxTwiddle (gridOf .pvrtc1 bpp a).nx (gridOf .pvrtc1 bpp a).ny) := by
  rw [pvrtcNeedSrc, if_neg (by omega)]

theorem pvrtcNeedSrc_pvrtc2 (bpp : Bpp) (a : Args) (hw : a.width.toNat ≠ 0)
    (hh : a.height.toNat ≠ 0) :
    pvrtcNeedSrc .pvrtc2 bpp a = 8 * (gridOf .pvrtc2 bpp a).nx * (gridOf .pvrtc2 bpp a).ny := by
  rw [pvrtcNeedSrc, if_neg (by omega)]

theorem wordOffset_pvrtc1 (bpp : Bpp) (a : Args) (x y : Nat) :
    wordOffset (gridOf .pvrtc1 bpp a) x y =
      8 * twiddle (gridOf .pvrtc1 bpp a).nx (gridOf .pvrtc1 bpp a).ny x y :=
  rfl

theorem wordOffset_pvrtc2 (bpp : Bpp) (a : Args) (x y : Nat) :
    wordOffset (gridOf .pvrtc2 bpp a) x y = 8 * (y * (gridOf .pvrtc2 bpp a).nx + x) :=
  rfl

/-- Some word ends with the last needed byte: the one of the largest index in PVRTC1, the last word in
PVRTC2. -/
theorem exists_wordOffset_end (v : Variant) (bpp : Bpp) (a : Args) (hw : a.width.toNat ≠ 0)
    (hh : a.height.toNat ≠ 0) :
    ∃ x y, x < (gridOf v bpp a).nx ∧ y < (gridOf v bpp a).ny ∧
      wordOffset (gridOf v bpp a) x y + 8 = pvrtcNeedSrc v bpp a := by
  obtain ⟨hnx, hny⟩ := gridOf_two_le v bpp a
  cases v with
  | pvrtc1 =>
    obtain ⟨x, y, hx, hy, hmax⟩ := exists_twiddle_eq_maxTwiddle _ _
      (Nat.zero_lt_of_lt hnx) (Nat.zero_lt_of_lt hny)
    refine ⟨x, y, hx, hy, ?_⟩
    rw [wordOffset_pvrtc1, pvrtcNeedSrc_pvrtc1 bpp a hw hh, hmax]
    omega
  | pvrtc2 =>
    rw [pvrtcNeedSrc_pvrtc2 bpp a hw hh]
    simp only [wordOffset_pvrtc2]
    generalize (gridOf .pvrtc2 bpp a).nx = nx at *
    generalize (gridOf .pvrtc2 bpp a).ny = ny at *
    obtain ⟨nx, rfl⟩ := Nat.exists_eq_add_of_lt (Nat.zero_lt_of_lt hnx)
    obtain ⟨ny, rfl⟩ := Nat.exists_eq_add_of_lt (Nat.zero_lt_of_lt hny)
    exact ⟨nx, ny, by omega, by omega, by ring⟩

end Sys2Proof.Machine

/-! ### The statements -/

/-- Settles O20: on each axis the toroidal index is a bijection from the tiles to the words. -/
theorem tilesAreTheirNeighbours : Obligations.TilesAreTheirNeighbours := by
  intro m src g hnx hny col row isTile
  have hcol : ∀ i : Int, -1 ≤ i → i < g.nx → wrap i g.nx = col i := fun i => wrap_eq_ite g.nx i hnx
  have hrow : ∀ i : Int, -1 ≤ i → i < g.ny → wrap i g.ny = row i := fun i => wrap_eq_ite g.ny i hny
  refine ⟨?_, hcol, wrap_self g.nx, hrow, wrap_self g.ny, fun x y hx hy => ?_⟩
  · rintro ⟨a, b⟩ ⟨ha0, ha1, hb0, hb1⟩
    simp only at ha0 ha1 hb0 hb1
    rw [tileAt, hcol a ha0 (by omega), hcol (a + 1) (by omega) (by omega), hrow b hb0 (by omega),
      hrow (b + 1) (by omega) (by omega)]
  · have hlow := existsUnique_wrap g.nx x hx
    have hhigh := existsUnique_wrap_succ g.nx x hx
    have hlow' := existsUnique_wrap g.ny y hy
    have hhigh' := existsUnique_wrap_succ g.ny y hy
    have role : ∀ {p q : Int → Nat},
        (∃! i : Int, (-1 ≤ i ∧ i ≤ (g.nx : Int) - 2) ∧ p i = x) →
        (∃! i : Int, (-1 ≤ i ∧ i ≤ (g.ny : Int) - 2) ∧ q i = y) →
        ∃! t : Int × Int, isTile t ∧ (p t.1, q t.2) = (x, y) := fun hp hq =>
      (existsUnique_congr fun t => by simp only [isTile, Prod.mk.injEq]; tauto).mp
        (existsUnique_pair hp hq)
    exact ⟨role hlow hlow', role hhigh hlow', role hlow hhigh', role hhigh hhigh'⟩

/-- Settles O21: each axis on its own has one tile coordinate for each scratch coordinate. -/
theorem eachScratchPixelHasOneTilePixel : Obligations.EachScratchPixelHasOneTilePixel := by
  intro bpp nx ny x y hx hy
  obtain ⟨half, hhalf, hwidth⟩ := wordWidth_eq bpp
  rw [hwidth] at hx ⊢
  have hpair := existsUnique_pair (existsUnique_scratchCoord half nx x hhalf hx)
    (existsUnique_scratchCoord 2 ny y (by decide) hy)
  exact (existsUnique_congr fun k => by tauto).mp hpair

/-- Settles O22, by the bits below and above `2 * sc`. -/
theorem twiddleInterleavesBits : Obligations.TwiddleInterleavesBits := by
  intro nx ny x y k sc
  refine ⟨fun hk => ⟨?_, ?_⟩, ?_⟩
  · rw [twiddle_testBit, if_pos (show 2 * k < 2 * sc by omega), if_pos (by omega),
      show 2 * k / 2 = k by omega]
  · rw [twiddle_testBit, if_pos (show 2 * k + 1 < 2 * sc by omega), if_neg (by omega),
      show (2 * k + 1) / 2 = k by omega]
  · rw [twiddle_testBit, if_neg (show ¬ 2 * sc + k < 2 * sc by omega),
      show 2 * sc + k - Nat.clog 2 (min nx ny) = sc + k by omega]

/-- Settles O23: the largest index is that of the last word. -/
theorem powerOfTwoGridNeedsItsWordsOnly : Obligations.PowerOfTwoGridNeedsItsWordsOnly := by
  intro bpp a i j hw hh hnx hny
  rw [pvrtcNeedSrc_pvrtc1 bpp a (BitVec.toNat_pos_of_ne_zero hw).ne'
    (BitVec.toNat_pos_of_ne_zero hh).ne', hnx, hny, maxTwiddle_two_pow, Nat.pow_add, Nat.mul_assoc]

/-- Settles O24. -/
theorem neededBytesAreTheGridsBytes : Obligations.NeededBytesAreTheGridsBytes := by
  refine fun v bpp a => ⟨fun hempty => ?_, fun hw hh => ?_⟩
  · have h : a.width.toNat = 0 ∨ a.height.toNat = 0 :=
      hempty.imp (congrArg BitVec.toNat) (congrArg BitVec.toNat)
    exact ⟨pvrtcNeedSrc_of_empty v bpp a h, needDst_of_empty a h⟩
  · have hw := (BitVec.toNat_pos_of_ne_zero hw).ne'
    have hh := (BitVec.toNat_pos_of_ne_zero hh).ne'
    exact ⟨fun x y => wordOffset_inside v bpp a x y hw hh, exists_wordOffset_end v bpp a hw hh⟩

end

section
/-! PROOFS of the PVRTC weights (41_pvrtc.md R209 to R217): first what each 4bpp code, each 2bpp sub-mode
and the fix-ups answer, each said once; then the statements, by the theorem that settles each. -/

open Sys2Proof Sys2Proof.Machine

namespace Sys2Proof.Machine

/-! ### The table and the 4bpp weight (R210 to R212) -/

theorem weightTable_eq_ite (code : Nat) :
    weightTable code =
      if code = 0 then 0 else if code = 1 then 3 else if code = 2 then 5 else 8 := by
  unfold weightTable
  split <;> simp_all

/-- Only a PVRTC2 word with MODFLAG = 1 turns code 2 into the sentinel. -/
theorem weight4_eq_ite (v : Variant) (w : PvrtcWord) (x y : Nat) :
    weight4 v w x y =
      if v = .pvrtc2 ∧ w.col % 2 = 1 ∧ w.mod / 4 ^ (4 * y + x) % 4 = 2 then 15
      else weightTable (w.mod / 4 ^ (4 * y + x) % 4) := by
  rw [weight4, modFlag_eq, code4_eq]
  rfl

/-- The 4bpp weight of a tile pixel is the one its owner gives to the word-local pixel (R216). -/
theorem tileWeight_four (v : Variant) (t : Tile) (c r : Nat) (hc : c < 4) (hr : r < 4) :
    tileWeight v .four t c r = weight4 v (t.owner .four c r) ((c + 2) % 4) ((r + 2) % 4) := by
  rw [← wordOf_eq_owner t .four c r hc hr]
  rfl

/-! ### The sub-mode of a 2bpp word (R213, R214) -/

theorem bit_zero_eq (m : Nat) : bit m 0 = m % 2 := by
  simp [bit, bits]

theorem bit_eq (m i : Nat) : bit m i = m / 2 ^ i % 2 := by
  simp [bit, bits]

theorem subMode_direct (w : PvrtcWord) (h : w.col % 2 = 0) : subMode w = .direct := by
  rw [subMode, modFlag_eq, if_pos h]

theorem subMode_hv (w : PvrtcWord) (h : w.col % 2 = 1) (h0 : w.mod % 2 = 0) : subMode w = .hv := by
  rw [subMode, modFlag_eq, if_neg (by omega), bit_zero_eq, if_neg (by omega)]

theorem subMode_hOnly (w : PvrtcWord) (h : w.col % 2 = 1) (h0 : w.mod % 2 = 1)
    (h20 : w.mod / 2 ^ 20 % 2 = 0) : subMode w = .hOnly := by
  rw [subMode, modFlag_eq, if_neg (by omega), bit_zero_eq, if_pos h0, bit_eq, if_neg (by omega)]

theorem subMode_vOnly (w : PvrtcWord) (h : w.col % 2 = 1) (h0 : w.mod % 2 = 1)
    (h20 : w.mod / 2 ^ 20 % 2 = 1) : subMode w = .vOnly := by
  rw [subMode, modFlag_eq, if_neg (by omega), bit_zero_eq, if_pos h0, bit_eq, if_pos h20]

theorem subMode_ne_direct (w : PvrtcWord) (h : w.col % 2 = 1) : subMode w ≠ .direct := by
  rw [subMode, modFlag_eq, if_neg (by omega)]
  split
  · split <;> decide
  · decide

/-- A direct word weighs by one bit per pixel. -/
theorem weightTable_code2_direct (w : PvrtcWord) (x y : Nat) (h : w.col % 2 = 0) :
    weightTable (code2 w x y) = if w.mod / 2 ^ (8 * y + x) % 2 = 1 then 8 else 0 := by
  rw [code2, subMode_direct w h]
  simp only [bit_eq]
  split <;> rfl

/-- An interpolated word keeps two bits for each of its stored pixels. -/
theorem code2_interpolated (w : PvrtcWord) (x y : Nat) (h : w.col % 2 = 1) :
    code2 w x y = fixedMod w.mod / 4 ^ (4 * y + x / 2) % 4 := by
  have hne := subMode_ne_direct w h
  unfold code2
  split
  · contradiction
  · simp [bits, storedIndex, Nat.pow_mul]

/-- `m[i] <- u[k]` copies one bit. -/
theorem setBit_bit_testBit (m i u k j : Nat) :
    (setBit m i (bit u k)).testBit j = if j = i then u.testBit k else m.testBit j := by
  simp only [setBit_testBit _ _ _ _ (bit_lt u k), bit_eq_one, Bool.decide_eq_true]

/-- The fix-ups, bit by bit: the first assignment of R214 touches bit 20 alone, the second bit 0. -/
theorem fixedMod_testBit (m j : Nat) :
    (fixedMod m).testBit j =
      if j = 0 then m.testBit 1
      else if j = 20 ∧ m.testBit 0 = true then m.testBit 21
      else m.testBit j := by
  have hfirst : ∀ k, (if bit m 0 = 1 then setBit m 20 (bit m 21) else m).testBit k =
      if k = 20 ∧ m.testBit 0 = true then m.testBit 21 else m.testBit k := by
    intro k
    simp only [bit_eq_one]
    split
    next h => simp only [setBit_bit_testBit, h, and_true]
    next h => simp [h]
  simp only [fixedMod, setBit_bit_testBit, hfirst]
  simp

/-! ### The 2bpp weight at a place of the combined grid (R215) -/

section
variable (v : Variant) (t : Tile) (x y : Nat)

theorem weightAt_two_even (h : (x + y) % 2 = 0) : weightAt v .two t x y = tableWeight2 t x y := by
  simp [weightAt, h]

theorem weightAt_two_direct (h : (t.wordOf .two x y).col % 2 = 0) :
    weightAt v .two t x y =
      if (t.wordOf .two x y).mod / 2 ^ (8 * (y % 4) + x % 8) % 2 = 1 then 8 else 0 := by
  rw [← weightTable_code2_direct _ _ _ h]
  simp [weightAt, subMode_direct _ h, tableWeight2]

theorem weightAt_two_stored (h : (t.wordOf .two x y).col % 2 = 1) (he : (x + y) % 2 = 0) :
    weightAt v .two t x y =
      weightTable (fixedMod (t.wordOf .two x y).mod / 4 ^ (4 * (y % 4) + x % 8 / 2) % 4) := by
  rw [weightAt_two_even v t x y he, tableWeight2, code2_interpolated _ _ _ h]

/-! Between the stored places the weight is the rounded average of the neighbours that the sub-mode names,
and every neighbour is a place with x + y even. -/

theorem weightAt_two_hv (ho : (x + 1 + (y + 1)) % 2 = 1)
    (hs : subMode (t.wordOf .two (x + 1) (y + 1)) = .hv) :
    weightAt v .two t (x + 1) (y + 1) =
      (weightAt v .two t (x + 1) y + weightAt v .two t (x + 1) (y + 2)
        + weightAt v .two t x (y + 1) + weightAt v .two t (x + 2) (y + 1) + 2) / 4 := by
  rw [weightAt_two_even v t (x + 1) y (by omega), weightAt_two_even v t (x + 1) (y + 2) (by omega),
    weightAt_two_even v t x (y + 1) (by omega), weightAt_two_even v t (x + 2) (y + 1) (by omega)]
  simp [weightAt, ho, hs]

theorem weightAt_two_hOnly (ho : (x + 1 + (y + 1)) % 2 = 1)
    (hs : subMode (t.wordOf .two (x + 1) (y + 1)) = .hOnly) :
    weightAt v .two t (x + 1) (y + 1) =
      (weightAt v .two t x (y + 1) + weightAt v .two t (x + 2) (y + 1) + 1) / 2 := by
  rw [weightAt_two_even v t x (y + 1) (by omega), weightAt_two_even v t (x + 2) (y + 1) (by omega)]
  simp [weightAt, ho, hs]

theorem weightAt_two_vOnly (ho : (x + 1 + (y + 1)) % 2 = 1)
    (hs : subMode (t.wordOf .two (x + 1) (y + 1)) = .vOnly) :
    weightAt v .two t (x + 1) (y + 1) =
      (weightAt v .two t (x + 1) y + weightAt v .two t (x + 1) (y + 2) + 1) / 2 := by
  rw [weightAt_two_even v t (x + 1) y (by omega), weightAt_two_even v t (x + 1) (y + 2) (by omega)]
  simp [weightAt, ho, hs]

end

end Sys2Proof.Machine

/-! ### The statements -/

/-- Settles O26. -/
theorem fourBppWeightsFollowTheTable : Obligations.FourBppWeightsFollowTheTable := by
  intro v t c r hc hr k own code
  rw [tileWeight_four v t c r hc hr, weight4_eq_ite, weightTable_eq_ite]
  change (if v = .pvrtc2 ∧ own.col % 2 = 1 ∧ code = 2 then 15 else
    if code = 0 then 0 else if code = 1 then 3 else if code = 2 then 5 else 8) = _
  by_cases h2 : code = 2
  · simp [h2]
  · simp [h2]

/-- Settles O28. -/
theorem fixUpsReplaceTheFlagBits : Obligations.FixUpsReplaceTheFlagBits :=
  fixedMod_testBit

/-- Settles O27: first the places, then a tile pixel as the place (c + 4, r + 2) of its owner. -/
theorem twoBppWeightsFollowTheSubMode : Obligations.TwoBppWeightsFollowTheSubMode := by
  intro v t w table direct stored
  have htable : ∀ code, weightTable code = table code := weightTable_eq_ite
  have places : ∀ x y, ((t.wordOf .two x y).col % 2 = 0 →
        w x y = direct (t.wordOf .two x y).mod (x % 8) (y % 4)) ∧
      ((t.wordOf .two x y).col % 2 = 1 → (x + y) % 2 = 0 →
        w x y = stored (t.wordOf .two x y).mod (x % 8) (y % 4)) := fun x y =>
    ⟨weightAt_two_direct v t x y, fun h he => (weightAt_two_stored v t x y h he).trans (htable _)⟩
  refine ⟨fun x y _ _ => places x y, fun c r hc hr => ?_⟩
  intro own lx ly
  have hown : t.wordOf .two (c + 4) (r + 2) = own := wordOf_eq_owner t .two c r hc hr
  obtain ⟨hdirect, hstored⟩ := places (c + 4) (r + 2)
  rw [hown] at hdirect hstored
  refine ⟨hdirect, fun h he => hstored h (by omega), fun h ho h0 => ?_, fun h ho h0 h20 => ?_,
    fun h ho h0 h20 => ?_⟩
  · exact weightAt_two_hv v t (c + 3) (r + 1) (by omega) (hown ▸ subMode_hv own h h0)
  · exact weightAt_two_hOnly v t (c + 3) (r + 1) (by omega) (hown ▸ subMode_hOnly own h h0 h20)
  · exact weightAt_two_vOnly v t (c + 3) (r + 1) (by omega) (hown ▸ subMode_vOnly own h h0 h20)

/-- Settles O29: in 2bpp every weight is a table entry or an average of some; in 4bpp it is a table entry
or the sentinel. -/
theorem weightsStayInRange : Obligations.WeightsStayInRange := by
  intro v bpp t c r hc hr
  cases bpp with
  | two =>
    rcases weightAt_range v .two t (c + 4) (r + 2) with h | ⟨_, _, hmode, _⟩
    · exact .inl h
    · cases hmode
  | four =>
    rw [tileWeight_four v t c r hc hr, weight4_eq_ite]
    split
    next h =>
      obtain ⟨hv, hflag, hcode⟩ := h
      exact .inr ⟨rfl, hv, rfl, hflag, hcode⟩
    next => exact .inl (weightTable_le _)

end

section
/-! PROOFS of the PVRTC colours (41_pvrtc.md R206 to R208, R218 to R223): first the fields of a colour
half, the scaling and its ranges, what a hard quadrant takes and what a pixel is, each said once; then
the statements, by the theorem that settles each. -/

open Sys2Proof Sys2Proof.Machine

namespace Sys2Proof.Machine

/-! ### The fields of a colour half (R98, R99, R206 to R208) -/

theorem bits_toNat (w : Word) (hi lo : Nat) : bits w.toNat hi lo = (w.extractLsb hi lo).toNat := by
  simp [bits, BitVec.extractLsb, Nat.shiftRight_eq_div_pow]

theorem bit_toNat_eq_one (w : Word) (i : Nat) (hi : i < 32) : bit w.toNat i = 1 ↔ w[i] = true := by
  rw [bit_eq_one, BitVec.testBit_toNat, BitVec.getLsbD_eq_getElem hi]

theorem bits_testBit (v hi lo j : Nat) :
    (bits v hi lo).testBit j = (decide (j < hi - lo + 1) && v.testBit (lo + j)) := by
  rw [bits, Nat.testBit_mod_two_pow, Nat.testBit_div_two_pow, Nat.add_comm j lo]

/-- A field depends on its own bits alone. -/
theorem bits_congr (u v hi lo : Nat) (hle : lo ≤ hi)
    (h : ∀ k, k ≤ hi → u.testBit k = v.testBit k) : bits u hi lo = bits v hi lo := by
  refine Nat.eq_of_testBit_eq fun j => ?_
  rw [bits_testBit, bits_testBit]
  by_cases hj : j < hi - lo + 1
  · rw [h (lo + j) (by omega)]
  · simp [hj]

/-- Endpoint A in the opaque layout of R98 and R99. -/
def opaqueColourA (col : Nat) : Colour :=
  { r := bits col 14 10, g := bits col 9 5, b := widen4to5 (bits col 4 1), a := 15 }

/-- Endpoint A in the transparent layout of R98 and R99. -/
def clearColourA (col : Nat) : Colour :=
  { r := widen4to5 (bits col 11 8), g := widen4to5 (bits col 7 4), b := widen3to5 (bits col 3 1),
    a := bits col 14 12 <<< 1 }

theorem colourA1_eq_ite (col : Nat) :
    colourA1 col = if bit col 15 = 1 then opaqueColourA col else clearColourA col :=
  rfl

/-- The colour half that PVRTC2 gives to PVRTC1's endpoint A: bits 14:0 stay, and bit 31 stands at 15. -/
def movedOpacity (col : Nat) : Nat := (col &&& 0x7FFF) ||| (bit col 31 <<< 15)

theorem movedOpacity_testBit_low (col k : Nat) (hk : k < 15) :
    (movedOpacity col).testBit k = col.testBit k := by
  have hmask : Nat.testBit 0x7FFF k = true :=
    (Nat.testBit_two_pow_sub_one 15 k).trans (decide_eq_true hk)
  rw [movedOpacity, Nat.testBit_or, Nat.testBit_and, hmask, Nat.testBit_shiftLeft]
  simp [hk]

theorem bit_movedOpacity (col : Nat) : bit (movedOpacity col) 15 = bit col 31 := by
  have hmask : col &&& 0x7FFF = col % 2 ^ 15 := Nat.and_two_pow_sub_one_eq_mod col 15
  have hbit := bit_lt col 31
  rw [bit_eq, movedOpacity, hmask, Nat.or_comm,
    ← Nat.shiftLeft_add_eq_or_of_lt (Nat.mod_lt _ (by decide)), Nat.shiftLeft_eq]
  omega

/-- PVRTC2 reads the same fields of endpoint A, chosen by bit 31 (R208). -/
theorem colourA_pvrtc2 (col : Nat) :
    colourA .pvrtc2 col = if bit col 31 = 1 then opaqueColourA col else clearColourA col := by
  have field : ∀ hi lo, lo ≤ hi → hi < 15 → bits (movedOpacity col) hi lo = bits col hi lo :=
    fun hi lo hle hhi =>
      bits_congr _ _ hi lo hle fun k hk => movedOpacity_testBit_low col k (by omega)
  change colourA1 (movedOpacity col) = _
  rw [colourA1_eq_ite, bit_movedOpacity]
  simp (disch := decide) only [opaqueColourA, clearColourA, field]

theorem isHard_pvrtc1 (col : Nat) : isHard .pvrtc1 col = false :=
  rfl

theorem isHard_pvrtc2 (col : Nat) : isHard .pvrtc2 col = decide (bit col 15 = 1) :=
  rfl

/-! ### Interpolation (R218, R219) -/

theorem scaleRgb_four (acc : Nat) : scaleRgb .four acc = acc / 64 + acc / 2 := by
  simp [scaleRgb, Nat.shiftRight_eq_div_pow]

theorem scaleRgb_two (acc : Nat) : scaleRgb .two acc = acc / 128 + acc / 4 := by
  simp [scaleRgb, Nat.shiftRight_eq_div_pow]

theorem scaleAlpha_four (acc : Nat) : scaleAlpha .four acc = acc / 16 + acc := by
  simp [scaleAlpha, Nat.shiftRight_eq_div_pow]

theorem scaleAlpha_two (acc : Nat) : scaleAlpha .two acc = acc / 32 + acc / 2 := by
  simp [scaleAlpha, Nat.shiftRight_eq_div_pow]

theorem scaleRgb_le (bpp : Bpp) (acc : Nat) (h : acc ≤ 124 * wordWidth bpp) :
    scaleRgb bpp acc ≤ 255 := by
  cases bpp <;> simp only [wordWidth, scaleRgb_two, scaleRgb_four] at * <;> omega

theorem scaleAlpha_le (bpp : Bpp) (acc : Nat) (h : acc ≤ 60 * wordWidth bpp) :
    scaleAlpha bpp acc ≤ 255 := by
  cases bpp <;> simp only [wordWidth, scaleAlpha_two, scaleAlpha_four] at * <;> omega

/-- Scaling the accumulator of one single channel value replicates its bits. -/
theorem scaleRgb_uniform (bpp : Bpp) (v : Nat) :
    scaleRgb bpp (4 * wordWidth bpp * v) = 8 * v + v / 4 := by
  cases bpp <;> simp only [wordWidth, scaleRgb_two, scaleRgb_four] <;> omega

theorem scaleAlpha_uniform (bpp : Bpp) (v : Nat) :
    scaleAlpha bpp (4 * wordWidth bpp * v) = 17 * v := by
  cases bpp <;> simp only [wordWidth, scaleAlpha_two, scaleAlpha_four] <;> omega

/-- At the tile's corner the accumulator is P's alone. -/
theorem bilinear_corner (ww p q r' s : Nat) : bilinear ww 0 0 p q r' s = 4 * ww * p := by
  simp [bilinear, Nat.mul_assoc]

/-- A colour of working precision in 8 bits: the colour channels bit-replicated, and 17 times alpha. -/
def Colour.widened (e : Colour) : Colour :=
  { r := 8 * e.r + e.r / 4, g := 8 * e.g + e.g / 4, b := 8 * e.b + e.b / 4, a := 17 * e.a }

theorem interpolate_corner (bpp : Bpp) (p q r' s : Colour) :
    interpolate bpp 0 0 p q r' s = p.widened := by
  simp only [interpolate, bilinear_corner, scaleRgb_uniform, scaleAlpha_uniform]
  rfl

theorem interpolate_uniform (bpp : Bpp) (c r : Nat) (p : Colour) (hc : c ≤ wordWidth bpp)
    (hr : r ≤ 4) : interpolate bpp c r p p p p = p.widened := by
  simp only [interpolate, bilinear_uniform _ _ _ _ hc hr, scaleRgb_uniform, scaleAlpha_uniform]
  rfl

/-- A colour in 8-bit precision. -/
def Colour.EightBit (e : Colour) : Prop := e.r ≤ 255 ∧ e.g ≤ 255 ∧ e.b ≤ 255 ∧ e.a ≤ 255

section
variable {bpp : Bpp} {c r : Nat} (hc : c < wordWidth bpp) (hr : r < 4)
include hc hr

theorem bilinear_le_rgb {p q r' s : Nat} (hp : p < 32) (hq : q < 32) (hr' : r' < 32) (hs : s < 32) :
    bilinear (wordWidth bpp) c r p q r' s ≤ 124 * wordWidth bpp := by
  have h := bilinear_le (wordWidth bpp) c r p q r' s 31 hc.le hr.le (by omega) (by omega) (by omega)
    (by omega)
  omega

theorem bilinear_le_alpha {p q r' s : Nat} (hp : p < 16) (hq : q < 16) (hr' : r' < 16)
    (hs : s < 16) : bilinear (wordWidth bpp) c r p q r' s ≤ 60 * wordWidth bpp := by
  have h := bilinear_le (wordWidth bpp) c r p q r' s 15 hc.le hr.le (by omega) (by omega) (by omega)
    (by omega)
  omega

theorem interpolate_eightBit {p q r' s : Colour} (hp : p.Working) (hq : q.Working)
    (hr' : r'.Working) (hs : s.Working) : (interpolate bpp c r p q r' s).EightBit := by
  obtain ⟨pr, pg, pb, pa⟩ := hp
  obtain ⟨qr, qg, qb, qa⟩ := hq
  obtain ⟨rr, rg, rb, ra⟩ := hr'
  obtain ⟨sr, sg, sb, sa⟩ := hs
  exact ⟨scaleRgb_le _ _ (bilinear_le_rgb hc hr pr qr rr sr),
    scaleRgb_le _ _ (bilinear_le_rgb hc hr pg qg rg sg),
    scaleRgb_le _ _ (bilinear_le_rgb hc hr pb qb rb sb),
    scaleAlpha_le _ _ (bilinear_le_alpha hc hr pa qa ra sa)⟩

end

/-! ### Hard quadrants (R220) -/

theorem replicate5_eq : ∀ v < 32, (v <<< 3) ||| (v >>> 2) = 8 * v + v / 4 := by decide

/-- HARD_ALPHA_MODE decides the alpha of a flat endpoint alone: the rest is its own widened value. -/
theorem flatColour_eq (mode : HardAlphaMode) (e : Colour) (he : e.Working) :
    flatColour mode e = { e.widened with a := (flatColour mode e).a } := by
  obtain ⟨hr, hg, hb, _⟩ := he
  simp only [flatColour, Colour.widened, replicate5_eq _ hr, replicate5_eq _ hg, replicate5_eq _ hb]

theorem Colour.Working.widened_eightBit {e : Colour} (he : e.Working) : e.widened.EightBit := by
  obtain ⟨hr, hg, hb, ha⟩ := he
  simp only [Colour.EightBit, Colour.widened]
  omega

theorem flatColour_eightBit (mode : HardAlphaMode) (e : Colour) (he : e.Working) :
    (flatColour mode e).EightBit := by
  obtain ⟨hr, hg, hb, ha⟩ := he.widened_eightBit
  rw [flatColour_eq mode e he]
  cases mode with
  | zero => exact ⟨hr, hg, hb, Nat.zero_le _⟩
  | endpoint => exact ⟨hr, hg, hb, ha⟩

section
variable {v : Variant} {bpp : Bpp} {t : Tile} {c r : Nat}

theorem endpointAt_hard (mode : HardAlphaMode) (colour : Nat → Colour)
    (h : isHard v (t.owner bpp c r).col = true) :
    endpointAt v bpp mode t c r colour = flatColour mode (colour (t.owner bpp c r).col) := by
  rw [endpointAt, if_pos h]

theorem endpointAt_soft (mode : HardAlphaMode) (colour : Nat → Colour)
    (h : isHard v (t.owner bpp c r).col = false) :
    endpointAt v bpp mode t c r colour =
      interpolate bpp c r (colour t.p.col) (colour t.q.col) (colour t.r.col) (colour t.s.col) := by
  rw [endpointAt, if_neg (by simp [h])]

/-- Every endpoint of a pixel is in 8-bit precision. -/
theorem endpointAt_eightBit (mode : HardAlphaMode) (colour : Nat → Colour)
    (hcol : ∀ col, (colour col).Working) (hc : c < wordWidth bpp) (hr : r < 4) :
    (endpointAt v bpp mode t c r colour).EightBit := by
  cases h : isHard v (t.owner bpp c r).col with
  | true =>
    rw [endpointAt_hard mode colour h]
    exact flatColour_eightBit mode _ (hcol _)
  | false =>
    rw [endpointAt_soft mode colour h]
    exact interpolate_eightBit hc hr (hcol _) (hcol _) (hcol _) (hcol _)

end

/-! ### The pixel (R221 to R223) -/

section
variable {v : Variant} {bpp : Bpp} {t : Tile} {c r : Nat}

theorem tilePixel_clear (mode : HardAlphaMode) (h : 10 < tileWeight v bpp t c r) :
    tilePixel v bpp mode t c r = Rgba.clear :=
  if_pos h

theorem tilePixel_blend (mode : HardAlphaMode) (h : tileWeight v bpp t c r ≤ 10) :
    tilePixel v bpp mode t c r =
      let w := tileWeight v bpp t c r
      let a := endpointAt v bpp mode t c r (colourA v)
      let b := endpointAt v bpp mode t c r (colourB v)
      Rgba.ofNat (blend w a.r b.r) (blend w a.g b.g) (blend w a.b b.b) (blend w a.a b.a) :=
  if_neg (by omega)

end

/-- Narrowing a blended channel of 8-bit endpoints to a byte changes nothing. -/
theorem toNat_ofNat_blend (w a b : Nat) (hw : w ≤ 8) (ha : a ≤ 255) (hb : b ≤ 255) :
    (BitVec.ofNat 8 (blend w a b)).toNat = (a * (8 - w) + b * w) / 8 := by
  have hle := blend_le w a b
  rw [BitVec.toNat_ofNat, Nat.mod_eq_of_lt (by omega), blend_unclamped w a b hw ha hb]

end Sys2Proof.Machine

/-! ### The statements -/

/-- Settles O25. -/
theorem endpointsReadTheirFields : Obligations.EndpointsReadTheirFields := by
  unfold Obligations.EndpointsReadTheirFields
  intro f w4 w3 opaqueA clearA opaqueB clearB w
  have field : ∀ hi lo, bits w.toNat hi lo = f w hi lo := bits_toNat w
  have widen4 : ∀ hi lo, hi - lo + 1 = 4 → widen4to5 (f w hi lo) = w4 (f w hi lo) :=
    fun hi lo h => widen4to5_eq _ (by rw [← field]; exact (bits_lt _ hi lo).trans_eq (by rw [h]; rfl))
  have widen3 : widen3to5 (f w 3 1) = w3 (f w 3 1) :=
    widen3to5_eq _ (by rw [← field]; exact bits_lt _ 3 1)
  have double : ∀ v : Nat, v <<< 1 = 2 * v := fun v => by omega
  have hopaqueA : opaqueColourA w.toNat = opaqueA w := by
    simp only [opaqueColourA, field, widen4 4 1 rfl, opaqueA]
  have hclearA : clearColourA w.toNat = clearA w := by
    simp only [clearColourA, field, widen4 11 8 rfl, widen4 7 4 rfl, widen3, double, clearA]
  have hB : colourB1 w.toNat = if w[31] = true then opaqueB w else clearB w := by
    simp only [colourB1, bit_toNat_eq_one w 31 (by decide), field, widen4 27 24 rfl,
      widen4 23 20 rfl, widen4 19 16 rfl, double, opaqueB, clearB]
  refine ⟨?_, hB, ?_, hB, rfl, ?_⟩
  · change colourA1 w.toNat = _
    simp only [colourA1_eq_ite, bit_toNat_eq_one w 15 (by decide), hopaqueA, hclearA]
  · simp only [colourA_pvrtc2, bit_toNat_eq_one w 31 (by decide), hopaqueA, hclearA]
  · simp only [isHard_pvrtc2, bit_toNat_eq_one w 15 (by decide), Bool.decide_eq_true]

/-- Settles O30. -/
theorem interpolationScalesToEightBits : Obligations.InterpolationScalesToEightBits := by
  intro bpp c r p q r' s hc hr ww acc rgb alpha working widened out
  have hww : ww = wordWidth bpp := by cases bpp <;> rfl
  have hacc : ∀ ch, acc ch = bilinear (wordWidth bpp) c r (ch p) (ch q) (ch r') (ch s) :=
    fun ch => by rw [← hww]; rfl
  have hrgb : ∀ x, scaleRgb bpp x = rgb x := by
    cases bpp
    · exact scaleRgb_two
    · exact scaleRgb_four
  have halpha : ∀ x, scaleAlpha bpp x = alpha x := by
    cases bpp
    · exact scaleAlpha_two
    · exact scaleAlpha_four
  refine ⟨?_, fun hp hq hr' hs => ?_, fun _ h => ?_⟩
  · simp only [hacc, ← hrgb, ← halpha]
    rfl
  · have hout : out.EightBit := interpolate_eightBit hc hr hp hq hr' hs
    obtain ⟨pr, pg, pb, pa⟩ := hp
    obtain ⟨qr, qg, qb, qa⟩ := hq
    obtain ⟨rr, rg, rb, ra⟩ := hr'
    obtain ⟨sr, sg, sb, sa⟩ := hs
    simp only [hacc, hww]
    exact ⟨bilinear_le_rgb hc hr pr qr rr sr, bilinear_le_rgb hc hr pg qg rg sg,
      bilinear_le_rgb hc hr pb qb rb sb, bilinear_le_alpha hc hr pa qa ra sa, hout⟩
  · rcases h with ⟨rfl, rfl⟩ | ⟨rfl, rfl, rfl⟩
    · exact interpolate_corner bpp p q r' s
    · exact interpolate_uniform bpp c r _ hc.le hr.le

/-- Settles O31: the owner's hard flag decides, and endpoints are in working precision. -/
theorem hardQuadrantsAreFlat : Obligations.HardQuadrantsAreFlat := by
  intro v bpp mode t c r colour hc hr hcolour own
  have hworking : ∀ col, (colour col).Working := by
    rcases hcolour with rfl | rfl
    · exact colourA_working v
    · exact colourB_working v
  refine ⟨?_, fun h => ?_⟩
  · rintro rfl hbit
    refine (endpointAt_hard mode colour ?_).trans (flatColour_eq mode _ (hworking _))
    exact decide_eq_true ((bit_eq own.col 15).trans hbit)
  · refine endpointAt_soft mode colour ?_
    cases v with
    | pvrtc1 => rfl
    | pvrtc2 =>
      have hbit : own.col / 2 ^ 15 % 2 = 0 := h.resolve_left (by decide)
      exact decide_eq_false (by rw [bit_eq]; exact hbit ▸ by decide)

/-- Settles O32: above 10 there is the sentinel alone. -/
theorem punchThroughClearsThePixel : Obligations.PunchThroughClearsThePixel := by
  intro v bpp mode t c r h
  rcases weightAt_range v bpp t (c + wordWidth bpp / 2) (r + 2) with hle | ⟨_, hv, hbpp, _⟩
  · exact absurd (h.trans_le hle) (by decide)
  · exact ⟨by rw [tilePixel_clear mode h]; rfl, hv, hbpp⟩

/-- Settles O33: both endpoints are in 8-bit precision, so no blended channel leaves 0..255. -/
theorem blendNeedsNoClamp : Obligations.BlendNeedsNoClamp := by
  intro v bpp mode t c r hc hr hle w a b px
  have hw : w ≤ 8 := by
    rcases weightAt_range v bpp t (c + wordWidth bpp / 2) (r + 2) with h | ⟨h15, _⟩
    · exact h
    · exact absurd (h15.symm.trans_le hle) (by decide)
  obtain ⟨ar, ag, ab, aa⟩ : a.EightBit :=
    endpointAt_eightBit mode _ (colourA_working v) hc hr
  obtain ⟨br, bg, bb, ba⟩ : b.EightBit :=
    endpointAt_eightBit mode _ (colourB_working v) hc hr
  have hpx : px = _ := tilePixel_blend mode hle
  rw [hpx]
  exact ⟨hw, toNat_ofNat_blend w _ _ hw ar br, toNat_ofNat_blend w _ _ hw ag bg,
    toNat_ofNat_blend w _ _ hw ab bb, toNat_ofNat_blend w _ _ hw aa ba⟩

end

section
/-! PROOFS of the PVRTC commands (41_pvrtc.md R201, R224 to R227, R240 to R243): first what a completed
raster reads as, what a command below the floor and a uniform texture decode to, and what an operation
does not read, each said once; then the statements, by the theorem that settles each. -/

open Sys2Proof Sys2Proof.Machine

namespace Sys2Proof.Machine

/-! ### Where the tile pixels land (R224 to R226) -/

theorem HoldsRaster.readBytes {m : Memory} {dst w h : Nat} {px : Nat → Nat → Rgba}
    (hr : HoldsRaster m dst w h px) {x y : Nat} (hx : x < w) (hy : y < h) :
    m.readBytes (dst + (y * w + x) * 4) 4 = (px x y).bytes := by
  obtain ⟨h0, h1, h2, h3⟩ := hr x y hx hy
  rw [Rgba.bytes, ← h0, ← h1, ← h2, ← h3]
  rfl

/-- An operation whose raster is the scratch raster of `v` and `bpp` decodes that variant and mode. -/
theorem pvrtcDecodes_of_scratchPixel {op : Nat} {i : Instr} {v : Variant} {bpp : Bpp}
    (hword : encode i = BitVec.ofNat 32 op) (hneed : needSrc i = pvrtcNeedSrc v bpp)
    (hpixel : ∀ s, pixelOf i s =
      scratchPixel s.mem s.latch.srcBase.toNat (gridOf v bpp s.latch) s.params.hardAlpha) :
    PvrtcDecodes op i v bpp (wordWidth bpp) (floorWidth bpp) := by
  refine ⟨hword, fun s hacc => ?_⟩
  obtain ⟨m, hexec, hraster, hsame⟩ := completes_of_accepts i s (hneed ▸ hacc)
  rw [hpixel] at hraster
  obtain ⟨hnx, hny⟩ := gridOf_two_le v bpp s.latch
  refine ⟨m, hexec, hsame, ?_, fun x y hx hy hout => ?_⟩
  · rintro a b c r _ _ ha ha' hb hb' hc hr rfl rfl hx hy
    rw [hraster.readBytes hx hy]
    exact congrArg Rgba.bytes (scratchPixel_at s.mem _ (gridOf v bpp s.latch) _ a b c r
      (Nat.zero_lt_of_lt hnx) (Nat.zero_lt_of_lt hny) ha ha' hb hb' hc hr)
  · rw [hraster.readBytes hx hy, scratchPixel_uncovered _ _ (gridOf v bpp s.latch) _ x y hout]
    rfl

/-! ### Requests below the floor (R201) -/

/-- Every request of at most 8×8 has the grid of the floor. -/
theorem gridOf_four_of_le (v : Variant) (a : Args) (hw : a.width.toNat ≤ 8)
    (hh : a.height.toNat ≤ 8) :
    gridOf v .four a = { variant := v, bpp := .four, nx := 2, ny := 2 } := by
  simp [gridOf, floorWidth, wordWidth, Nat.max_eq_right hw, Nat.max_eq_right hh]

/-! ### Uniform textures (R241) -/

/-- The tile whose four words are equal. -/
def Tile.uniform (w : PvrtcWord) : Tile :=
  { p := w, q := w, r := w, s := w }

theorem tileAt_uniform (m : Memory) (src : Nat) (g : Grid) (w : PvrtcWord) (a b : Int)
    (hnx : 0 < g.nx) (hny : 0 < g.ny)
    (h : ∀ x y, x < g.nx → y < g.ny → readWord m src g x y = w) :
    tileAt m src g a b = Tile.uniform w := by
  rw [tileAt, h _ _ (wrap_lt a _ hnx) (wrap_lt b _ hny),
    h _ _ (wrap_lt (a + 1) _ hnx) (wrap_lt b _ hny), h _ _ (wrap_lt a _ hnx) (wrap_lt (b + 1) _ hny),
    h _ _ (wrap_lt (a + 1) _ hnx) (wrap_lt (b + 1) _ hny), Tile.uniform]

theorem owner_uniform (w : PvrtcWord) (bpp : Bpp) (c r : Nat) :
    (Tile.uniform w).owner bpp c r = w := by
  simp [Tile.owner, Tile.uniform]

theorem endpointAt_uniform (bpp : Bpp) (mode : HardAlphaMode) (w : PvrtcWord) (c r : Nat)
    (colour : Nat → Colour) (hc : c < wordWidth bpp) (hr : r < 4) :
    endpointAt .pvrtc1 bpp mode (Tile.uniform w) c r colour = (colour w.col).widened :=
  (endpointAt_soft mode colour (isHard_pvrtc1 _)).trans
    (interpolate_uniform bpp c r (colour w.col) hc.le hr.le)

/-- A modulation half of one repeated code holds that code for each of its sixteen pixels. -/
theorem repeated_code_at : ∀ code < 4, ∀ k < 16, code * 0x55555555 / 4 ^ k % 4 = code := by
  decide

theorem tileWeight_uniform (code col c r : Nat) (hcode : code < 4) (hc : c < 4) (hr : r < 4) :
    tileWeight .pvrtc1 .four (Tile.uniform { mod := code * 0x55555555, col := col }) c r =
      weightTable code := by
  rw [tileWeight_four _ _ c r hc hr, owner_uniform, weight4_eq_ite, if_neg (by simp),
    repeated_code_at code hcode _ (by omega)]

/-- The colour of a PVRTC1 texture of one repeated code and one colour half. -/
def uniformPixel (code col : Nat) : Rgba :=
  let a := (colourA .pvrtc1 col).widened
  let b := (colourB .pvrtc1 col).widened
  Rgba.ofNat (blend (weightTable code) a.r b.r) (blend (weightTable code) a.g b.g)
    (blend (weightTable code) a.b b.b) (blend (weightTable code) a.a b.a)

theorem tilePixel_uniform (mode : HardAlphaMode) (code col c r : Nat) (hcode : code < 4)
    (hc : c < 4) (hr : r < 4) :
    tilePixel .pvrtc1 .four mode (Tile.uniform { mod := code * 0x55555555, col := col }) c r =
      uniformPixel code col := by
  have hweight := tileWeight_uniform code col c r hcode hc hr
  rw [tilePixel_blend mode (by rw [hweight]; exact (weightTable_le code).trans (by decide)), hweight,
    endpointAt_uniform .four mode _ c r _ hc hr, endpointAt_uniform .four mode _ c r _ hc hr]
  rfl

/-- A covered place of the scratch raster is a pixel of some tile. -/
theorem scratchPixel_covered (m : Memory) (src : Nat) (g : Grid) (mode : HardAlphaMode) (x y : Nat)
    (hx : x < g.nx * wordWidth g.bpp) (hy : y < g.ny * 4) :
    ∃ a b c r, c < wordWidth g.bpp ∧ r < 4 ∧ scratchPixel m src g mode x y =
      tilePixel g.variant g.bpp mode (tileAt m src g a b) c r := by
  obtain ⟨half, hhalf, hwidth⟩ := wordWidth_eq g.bpp
  obtain ⟨_, _, hc, _⟩ := scratchCoord_tileCoord half g.nx x hhalf (hwidth ▸ hx)
  obtain ⟨_, _, hr, _⟩ := scratchCoord_tileCoord 2 g.ny y (by decide) hy
  exact ⟨_, _, _, _, by rw [hwidth]; exact hc, hr, by rw [scratchPixel, if_pos ⟨hx, hy⟩, hwidth]⟩

/-! ### What no operation reads (R151, R227, R308) -/

/-- The error entry of a command that a region check rejects. -/
theorem exec_of_regionError {i : Instr} {s : State} {code : ErrCode}
    (h : regionError s.params.memSize (needSrc i) s.latch = some code) :
    exec i s = .next (s.enterError code) := by
  rw [exec_eq_runCommand, runCommand, h]

theorem rasterOf_numUnits (i : Instr) (s : State) (n : Nat) :
    rasterOf i { s with params := { s.params with numUnits := n } } = rasterOf i s := by
  cases i <;> rfl

end Sys2Proof.Machine

/-! ### The statements -/

/-- Settles O17. -/
theorem pvrtc1CommandsDecode : Obligations.Pvrtc1CommandsDecode :=
  ⟨pvrtcDecodes_of_scratchPixel rfl rfl fun _ => rfl,
    pvrtcDecodes_of_scratchPixel rfl rfl fun _ => rfl⟩

/-- Settles O18. -/
theorem pvrtc2CommandsDecode : Obligations.Pvrtc2CommandsDecode :=
  ⟨pvrtcDecodes_of_scratchPixel rfl rfl fun _ => rfl,
    pvrtcDecodes_of_scratchPixel rfl rfl fun _ => rfl⟩

/-- Settles O34: both requests have the floor's grid, so they crop one scratch raster. -/
theorem smallRequestsCropTheFloor : Obligations.SmallRequestsCropTheFloor := by
  intro s s' hmem hparams hsrc hw hh hw' hh' hacc hacc'
  obtain ⟨m, hexec, hraster, _⟩ := completes_of_accepts .pvrtc1_4bpp s hacc
  obtain ⟨m', hexec', hraster', _⟩ := completes_of_accepts .pvrtc1_4bpp s' hacc'
  refine ⟨_, _, hexec, hexec', fun x y hx hy => ?_⟩
  have hgrid : gridOf .pvrtc1 .four s.latch = gridOf .pvrtc1 .four s'.latch := by
    rw [gridOf_four_of_le _ _ hw hh, gridOf_four_of_le _ _ hw'.le hh'.le]
  have hpixel : pixelOf .pvrtc1_4bpp s x y = pixelOf .pvrtc1_4bpp s' x y := by
    simp only [pixelOf, hmem, hparams, hsrc, hgrid]
  rw [hw'] at hraster'
  exact (hraster.readBytes hx hy).trans
    ((congrArg Rgba.bytes hpixel).trans (hraster'.readBytes (by omega) (by omega)).symm)

/-- Settles O35: every covered pixel belongs to a tile of four equal words. -/
theorem uniformTexturesDecodeUniformly : Obligations.UniformTexturesDecodeUniformly := by
  intro s code col hcode hw hh hacc hwords
  obtain ⟨m, hexec, hraster, hsame⟩ := completes_of_accepts .pvrtc1_4bpp s hacc
  refine ⟨uniformPixel code col, m, hexec, hraster.congr fun x y hx hy => ?_, hsame⟩
  obtain ⟨hnx, hny⟩ := gridOf_two_le .pvrtc1 .four s.latch
  have hx' : x < max s.latch.width.toNat 8 / 4 * 4 := by omega
  have hy' : y < max s.latch.height.toNat 8 / 4 * 4 := by omega
  obtain ⟨a, b, c, r, hc, hr, hpixel⟩ := scratchPixel_covered s.mem s.latch.srcBase.toNat
    (gridOf .pvrtc1 .four s.latch) s.params.hardAlpha x y hx' hy'
  rw [tileAt_uniform _ _ _ _ a b (Nat.zero_lt_of_lt hnx) (Nat.zero_lt_of_lt hny) hwords] at hpixel
  exact hpixel.trans (tilePixel_uniform _ code col c r hcode hc hr)

/-- Settles O39, by the verdict of the region checks: neither it nor the raster reads NUM_UNITS. -/
theorem unitCountIsUnobservable : Obligations.UnitCountIsUnobservable := by
  intro i s n
  rcases exec_cases i s with ⟨code, hcode, hexec⟩ | ⟨hnone, hexec⟩
  · exact ⟨_, hexec, exec_of_regionError hcode⟩
  · have hacc : s.Accepts (needSrc i s.latch) := (regionError_eq_none s (needSrc i)).mp hnone
    refine ⟨_, hexec,
      (exec_of_accepts i { s with params := { s.params with numUnits := n } } hacc).trans ?_⟩
    rw [rasterOf_numUnits]
    rfl

end

section
/-! PROOFS of the checks, the error entry and the faults (60_exceptions.md): first the code of each region
check and which steps can fault, each said once; then the statements, by the theorem that settles each. -/

open Sys2Proof Sys2Proof.Machine

namespace Sys2Proof.Machine

/-! ### The region checks in their order (R301) -/

section
variable {memSize : Nat} {need : Args → Nat} {a : Args}

theorem regionError_range
    (h : ¬ (a.srcBase.toNat + a.srcLen.toNat ≤ memSize ∧
      a.dstBase.toNat + a.dstLen.toNat ≤ memSize)) :
    regionError memSize need a = some .range := by
  rw [regionError, if_pos (by omega)]

variable (hrange : a.srcBase.toNat + a.srcLen.toNat ≤ memSize ∧
  a.dstBase.toNat + a.dstLen.toNat ≤ memSize)
include hrange

theorem regionError_dstShort (hdst : a.dstLen.toNat < needDst a) :
    regionError memSize need a = some .dstShort := by
  rw [regionError, if_neg (by omega), if_pos hdst]

theorem regionError_srcShort (hdst : needDst a ≤ a.dstLen.toNat)
    (hsrc : a.srcLen.toNat < need a) :
    regionError memSize need a = some .srcShort := by
  rw [regionError, if_neg (by omega), if_neg hdst.not_gt, if_pos hsrc]

theorem regionError_overlap (hdst : needDst a ≤ a.dstLen.toNat) (hsrc : need a ≤ a.srcLen.toNat)
    (hmeet : 0 < need a ∧ 0 < needDst a ∧ a.srcBase.toNat < a.dstBase.toNat + needDst a ∧
      a.dstBase.toNat < a.srcBase.toNat + need a) :
    regionError memSize need a = some .overlap := by
  rw [regionError, if_neg (by omega), if_neg hdst.not_gt, if_neg hsrc.not_gt,
    if_pos (by simpa [rangesMeet, and_assoc] using hmeet)]

end

/-! ### Which steps fault (R305) -/

/-- A host step answers a next state, or it is a register or memory access and faults. -/
theorem hostStep_next_or_fault (op : HostOp) (s : State) :
    (∃ t, hostStep op s = .next t) ∨
      (op ≠ .poll ∧ op ≠ .reset ∧ ∃ f, hostStep op s = .fault f) := by
  cases op with
  | poll => exact .inl ⟨_, hostStep_poll s⟩
  | reset => exact .inl ⟨_, rfl⟩
  | regWrite addr bits value =>
    simp only [hostStep]
    split
    · simp
    · split <;> simp
  | regRead addr bits =>
    simp only [hostStep]
    split <;> simp
  | memWrite addr bytes =>
    simp only [hostStep]
    split
    · simp
    · split <;> simp
  | memRead addr count =>
    simp only [hostStep]
    split
    · simp
    · split <;> simp

theorem completeCommand_next (s : State) : ∃ t, completeCommand s = .next t := by
  rcases completeCommand_cases s with ⟨_, _, he⟩ | ⟨_, _, _, _, he⟩
  · exact ⟨_, he⟩
  · exact ⟨_, he⟩

theorem engineTurn_next (s : State) : ∃ t, engineTurn s = .next t := by
  unfold engineTurn
  split
  · exact completeCommand_next s
  · exact ⟨s, rfl⟩

/-- A step answers a next state, or it is a register or memory access of the host and faults. -/
theorem step_next_or_fault (s : State) :
    (∃ t, step s = .next t) ∨
      (nextAgent s = .host ∧
        (∃ op rest, s.hostQueue = op :: rest ∧ op ≠ .poll ∧ op ≠ .reset) ∧
        ∃ f, step s = .fault f) := by
  cases ha : nextAgent s with
  | engine =>
    left
    rw [step, ha]
    exact engineTurn_next _
  | host =>
    cases hq : s.hostQueue with
    | nil =>
      left
      simp [step, ha, turn, hostTurn, hq]
    | cons op rest =>
      rw [step_host_cons s op rest ha hq]
      exact (hostStep_next_or_fault op _).imp_right fun ⟨hpoll, hreset, hfault⟩ =>
        ⟨rfl, ⟨op, rest, rfl, hpoll, hreset⟩, hfault⟩

end Sys2Proof.Machine

/-! ### The statements -/

/-- Settles O7: each clause names the check that fails first, and the last one an accepted command. -/
theorem checksDecideInOrder : Obligations.ChecksDecideInOrder := by
  intro i s src dst slen dlen need out inRange overlap
  refine ⟨fun hr => ?_, fun hr hd => ?_, fun hr hd hs => ?_, fun hr hd hs ho => ?_,
    fun hr hd hs ho => ?_⟩
  · exact exec_of_regionError (regionError_range hr)
  · exact exec_of_regionError (regionError_dstShort hr hd)
  · exact exec_of_regionError (regionError_srcShort hr hd hs)
  · exact exec_of_regionError (regionError_overlap hr hd hs ho)
  · have hacc : s.Accepts (needSrc i s.latch) := ⟨hr.1, hr.2, hd, hs, by omega⟩
    exact ⟨_, exec_of_accepts i s hacc⟩

/-- Settles O8: the step is the completion, whose error entry carries the verdict's code. -/
theorem errorChangesStatusOnly : Obligations.ErrorChangesStatusOnly := by
  intro s hb ha
  rw [step_engine_busy s ha hb]
  refine ⟨fun code hv => ?_, fun t hc herror => ?_⟩
  · exact completeCommand_of_rejected { s with schedule := s.schedule.tail } code hv
  · rcases (completeCommand_ends _ t hc).status with hdone | ⟨_, hv⟩
    · simp [hdone] at herror
    · refine ⟨hv, fun hnone => ?_⟩
      rw [hnone] at hv
      exact verdict_error_ne_none _ _ hv

/-- Settles O38: the needed bytes lie inside the source region and outside the raster's. -/
theorem sourceBytesSurviveTheCommand : Obligations.SourceBytesSurviveTheCommand := by
  intro i s hacc
  refine ⟨_, exec_of_accepts i s hacc, fun k hk => ⟨?_, complete_read_source i s hacc k hk⟩⟩
  obtain ⟨hsrc, _, _, hneed, _⟩ := hacc
  omega

/-- Settles O60: a step that answers no next state is a host access that faults. -/
theorem onlyHostStepsFault : Obligations.OnlyHostStepsFault := by
  intro s
  rcases step_next_or_fault s with ⟨t, hnext⟩ | ⟨ha, ⟨op, rest, hq, hop⟩, f, hfault⟩
  · simp [hnext]
  · exact ⟨by simp [hfault], fun _ _ => ⟨ha, op, rest, hq, hop⟩⟩

end

section
/-! PROOFS of reset and the hazards (70_reset_and_hazards.md): first what the engine's turn, the host's
accesses to memory and the reset input do, each said once; then the statements, by the theorem that settles
each. -/

open Sys2Proof Sys2Proof.Machine

namespace Sys2Proof.Machine

/-! ### The turns of the agents (R345) -/

theorem engineTurn_of_not_busy (s : State) (hb : s.status.state ≠ .busy) : engineTurn s = .next s :=
  if_neg hb

theorem step_engine_not_busy (s : State) (ha : nextAgent s = .engine) (hb : s.status.state ≠ .busy) :
    step s = .next { s with schedule := s.schedule.tail } := by
  rw [step, ha]
  exact engineTurn_of_not_busy _ hb

theorem step_host_nil (s : State) (ha : nextAgent s = .host) (hq : s.hostQueue = []) :
    step s = .next { s with schedule := s.schedule.tail } := by
  simp [step, ha, turn, hostTurn, hq]

/-- A rejected command ends with a code that is not NONE (R300, R302). -/
theorem Ends.done_or_error {s t : State} (h : Ends s t) :
    t.status = { state := .done, err := .none } ∨
      (t.status.state = .error ∧ t.status.err ≠ .none) :=
  h.status.imp_right fun ⟨herror, hv⟩ =>
    ⟨herror, fun hnone => verdict_error_ne_none _ _ (hnone ▸ hv)⟩

/-- One step from BUSY ends the command or faults, unless the environment had a choice left and the command
runs on (R345). -/
theorem busy_step (s : State) (hb : s.status.state = .busy) :
    ((∃ t, core.run 1 s = .next t ∧ t.status.state ≠ .busy) ∨ ∃ f, core.run 1 s = .fault f) ∨
      (s.schedule ≠ [] ∧ ∃ t, step s = .next t ∧ t.status.state = .busy) := by
  rcases step_next_or_fault s with ⟨t, hnext⟩ | ⟨_, _, f, hfault⟩
  · by_cases hbt : t.status.state = .busy
    · refine .inr ⟨fun hs => ?_, t, hnext, hbt⟩
      rw [step_engine_busy s (nextAgent_eq_engine s hb (.inl hs)) hb] at hnext
      exact completeCommand_not_busy _ t hnext hbt
    · exact .inl (.inl ⟨t, run_succ_of_next core 0 s t hnext, hbt⟩)
  · exact .inl (.inr ⟨f, run_succ_of_fault core 0 s f hfault⟩)

/-! ### The commands the host has not seen end (R71, R344) -/

theorem writeOffset_unread (s : State) (offset : Nat) (v : Word) (hb : s.status.state ≠ .busy) :
    (writeOffset s offset v).unread =
      if (writeOffset s offset v).status.state = .busy then s.regs :: s.unread else s.unread := by
  rcases writeOffset_cases s offset v with ⟨regs, he⟩ | ⟨_, _, he⟩
  · simp [he, hb]
  · simp [he]

theorem completeCommand_unread (s t : State) (h : completeCommand s = .next t) :
    t.unread = s.unread := by
  rcases completeCommand_cases s with ⟨_, _, he⟩ | ⟨_, _, _, _, he⟩
  · obtain rfl := Host.Outcome.next.inj (he.symm.trans h)
    rfl
  · obtain rfl := Host.Outcome.next.inj (he.symm.trans h)
    rfl

/-- A host step adds to the list by START, and empties it by reset and by a STATUS read outside BUSY. -/
theorem hostStep_unread (op : HostOp) (s t : State) (h : hostStep op s = .next t) :
    t.unread =
      if s.status.state ≠ .busy ∧ t.status.state = .busy then s.regs :: s.unread
      else if op = .reset ∨ (s.status.state ≠ .busy ∧
          (op = .regRead (s.params.regBase + 0x24) 32 ∨ op = .poll)) then []
      else s.unread := by
  rcases hostStep_cases op s t h with ⟨_, _, v, offset, rfl, _, hw, rfl⟩ |
    ⟨addr, bits, offset, rfl, ho, rfl⟩ | ⟨_, _, rfl, _, _, rfl⟩ | ⟨_, _, rfl, _, _, rfl⟩ |
    ⟨rfl, _, rfl⟩ | ⟨rfl, _, rfl⟩ | ⟨rfl, rfl⟩
  · have hb := ((registersHeld_eq_false s).mp hw).1
    simp [writeOffset_unread s offset v hb, hb]
  · obtain ⟨rfl, rfl, _, _⟩ := accessOffset_eq_some _ _ _ _ ho
    by_cases hb : s.status.state = .busy <;> simp [hb, RegName.offset]
  · simp
  · simp
  · by_cases hb : s.status.state = .busy <;> simp [hb]
  · by_cases hb : s.status.state = .busy <;> simp [hb]
  · simp

/-! ### The host's accesses to memory (R344) -/

section
variable (s : State) (addr : Nat) (bytes : List Byte)

theorem hostStep_mem_of_hazard (hin : addr + bytes.length ≤ s.params.memSize)
    (hz : s.memHazard addr bytes.length = true) :
    hostStep (.memWrite addr bytes) s = .fault (.hostHazard .memBusy) ∧
      hostStep (.memRead addr bytes.length) s = .fault (.hostHazard .memBusy) := by
  simp [hostStep, (insideMemory_iff s.params addr bytes.length).mpr (.inr hin), hz]

theorem hostStep_mem_of_no_hazard (hin : addr + bytes.length ≤ s.params.memSize)
    (hz : s.memHazard addr bytes.length = false) :
    hostStep (.memWrite addr bytes) s = .next { s with mem := s.mem.write addr bytes } ∧
      hostStep (.memRead addr bytes.length) s =
        .next { s with trace := .memBytes addr (s.mem.readBytes addr bytes.length) :: s.trace } := by
  simp [hostStep, (insideMemory_iff s.params addr bytes.length).mpr (.inr hin), hz]

theorem hostStep_memWrite_next (u : State) (h : hostStep (.memWrite addr bytes) s = .next u) :
    s.memHazard addr bytes.length = false ∧ u = { s with mem := s.mem.write addr bytes } := by
  simp only [hostStep] at h
  split at h
  · cases h
  · split at h
    · cases h
    next hz => exact ⟨by simpa using hz, (Host.Outcome.next.inj h).symm⟩

end

/-! ### A host write beside a running command (R68, R344) -/

theorem Memory.read_write_congr (m m' : Memory) (a : Nat) (bs : List Byte) (x : Nat)
    (h : m.read x = m'.read x) : (m.write a bs).read x = (m'.write a bs).read x := by
  rw [Memory.read_write, Memory.read_write, h]

/-- Two writes that do not meet may be read in either order. -/
theorem Memory.read_write_write_of_disjoint (m : Memory) (a b : Nat) (as bs : List Byte) (x : Nat)
    (h : a ≤ x ∧ x < a + as.length → x < b ∨ b + bs.length ≤ x) :
    ((m.write a as).write b bs).read x =
      if a ≤ x ∧ x < a + as.length then (m.write a as).read x else (m.write b bs).read x := by
  split
  next hin => exact Memory.read_write_outside _ _ _ _ (h hin)
  next hout => exact Memory.read_write_congr _ _ _ _ _ (Memory.read_write_outside _ _ _ _ (by omega))

section
variable (s : State) (i : Instr) (hb : s.status.state = .busy)
  (hv : verdict s.params s.latch = .ok i) (addr : Nat) (bytes : List Byte)
  (hz : s.memHazard addr bytes.length = false)
include hb hv hz

theorem outside_destination_of_not_memHazard (x : Nat) (hx : addr ≤ x ∧ x < addr + bytes.length) :
    x < s.latch.dstBase.toNat ∨ s.latch.dstBase.toNat + needDst s.latch ≤ x := by
  by_contra hin
  have hazard : s.memHazard addr bytes.length = true :=
    (memHazard_iff s addr bytes.length).mpr
      ⟨s.latch, i, x, .inl ⟨hb, rfl⟩, hv, hx, .inr ⟨by omega, by omega⟩⟩
  exact absurd (hazard.symm.trans hz) (by decide)

theorem rasterOf_memWrite :
    rasterOf i { s with mem := s.mem.write addr bytes } = rasterOf i s :=
  (rasterOf_congr i s _ fun k hk =>
    (read_write_of_not_memHazard s i hb hv addr bytes hz _ (.inl ⟨by omega, by omega⟩)).symm).symm

end

/-! ### The memory after a reset while BUSY (R341) -/

section
variable (s : State) (hb : s.status.state = .busy)
include hb

theorem resetEvent_mem_of_rejected (code : ErrCode) (hv : verdict s.params s.latch = .error code) :
    s.resetEvent.mem = s.mem := by
  rw [resetEvent_mem_of_busy s hb, if_pos (footprint_of_error _ _ code hv).2]

variable (i : Instr) (hv : verdict s.params s.latch = .ok i)
include hv

theorem resetEvent_sameOutside :
    SameOutside s.mem s.resetEvent.mem s.latch.dstBase.toNat (needDst s.latch) := by
  intro x hx
  rw [resetEvent_mem_of_busy s hb, (footprint_of_ok _ _ i hv).2]
  split
  · rfl
  · exact Memory.read_write_outside _ _ _ _ (by simpa using hx)

theorem resetEvent_read_destination (k : Nat) (hk : k < needDst s.latch) :
    s.resetEvent.mem.read (s.latch.dstBase.toNat + k) = Config.freeByte (s.freeCount + k) := by
  rw [resetEvent_mem_of_busy s hb, (footprint_of_ok _ _ i hv).2, if_neg (by omega),
    Memory.read_write_inside _ _ _ k (by simpa using hk)]
  simp

end

end Sys2Proof.Machine

/-! ### The statements -/

/-- Settles O9: a BUSY engine takes the completion step, any other has nothing to do. -/
theorem everyCompletionEndsInDoneOrError : Obligations.EveryCompletionEndsInDoneOrError := by
  intro s ha
  refine ⟨fun hb => ?_, step_engine_not_busy s ha⟩
  obtain ⟨t, hc⟩ := completeCommand_next { s with schedule := s.schedule.tail }
  exact ⟨t, (step_engine_busy s ha hb).trans hc, (completeCommand_ends _ t hc).done_or_error⟩

/-- Settles O43, by the agent that moves: only a host step touches the list. -/
theorem statusReadEndsTheWindow : Obligations.StatusReadEndsTheWindow := by
  intro s t hst
  cases ha : nextAgent s with
  | engine =>
    by_cases hb : s.status.state = .busy
    · rw [step_engine_busy s ha hb] at hst
      simp [completeCommand_unread _ t hst, hb]
    · obtain rfl := Host.Outcome.next.inj ((step_engine_not_busy s ha hb).symm.trans hst)
      simp [hb]
  | host =>
    cases hq : s.hostQueue with
    | nil =>
      obtain rfl := Host.Outcome.next.inj ((step_host_nil s ha hq).symm.trans hst)
      simp
    | cons op rest =>
      rw [step_host_cons s op rest ha hq] at hst
      simpa using hostStep_unread op _ t hst

/-- Settles O49: the access is a hazard exactly when it touches a guarded byte. -/
theorem hostMemoryDuties : Obligations.HostMemoryDuties := by
  intro s addr bytes hin touched
  have hazard : s.memHazard addr bytes.length = true ↔ touched := memHazard_iff s addr bytes.length
  refine ⟨fun ht => hostStep_mem_of_hazard s addr bytes hin (hazard.mpr ht), fun ht => ?_⟩
  obtain ⟨hwrite, hread⟩ := hostStep_mem_of_no_hazard s addr bytes hin
    (Bool.eq_false_iff.mpr (mt hazard.mp ht))
  exact ⟨⟨_, hwrite, Memory.read_write_inside _ _ _, Memory.read_write_outside _ _ _⟩, hread⟩

/-- Settles O50: a rejected command writes nothing, and an accepted one finds the same source bytes and
stores the same raster beside the host's bytes. -/
theorem hostWritesElsewhereDoNotInteract : Obligations.HostWritesElsewhereDoNotInteract := by
  intro s u addr bytes hb hw
  obtain ⟨hz, rfl⟩ := hostStep_memWrite_next s addr bytes u hw
  rcases completeCommand_cases s with ⟨code, hv, hc⟩ | ⟨i, hv, _, _, hc⟩
  · refine ⟨_, _, hc, completeCommand_of_rejected _ code hv, rfl, rfl, rfl, fun x => ?_⟩
    split
    · rfl
    next hout => exact Memory.read_write_outside _ _ _ _ (by omega)
  · refine ⟨_, _, hc, completeCommand_of_accepted _ i hv, rfl, rfl, rfl, fun x => ?_⟩
    rw [rasterOf_memWrite s i hb hv addr bytes hz]
    refine Memory.read_write_write_of_disjoint _ _ _ _ _ x fun hx => ?_
    rw [rasterOf_length]
    exact outside_destination_of_not_memHazard s i hb hv addr bytes hz x hx

/-- Settles O55, by the verdict of the abandoned command. -/
theorem resetWhileBusyFreesTheDestination : Obligations.ResetWhileBusyFreesTheDestination := by
  intro s hb
  exact ⟨s.resetEvent, rfl, rfl, rfl, engineTurn_of_not_busy _ (by simp),
    resetEvent_mem_of_rejected s hb, fun i hv => ⟨resetEvent_sameOutside s hb i hv,
      fun k hk => ⟨_, resetEvent_read_destination s hb i hv k hk⟩⟩⟩

/-- Settles O59, by induction on the environment's choices: each step uses one up, and after the last the
engine completes the command. -/
theorem everyCommandEnds : Obligations.EveryCommandEnds := by
  intro s hb
  induction hsched : s.schedule generalizing s with
  | nil =>
    rcases busy_step s hb with hend | ⟨hne, _⟩
    · exact ⟨1, by simp, hend⟩
    · exact absurd hsched hne
  | cons a rest ih =>
    rcases busy_step s hb with hend | ⟨_, t, hnext, hbt⟩
    · exact ⟨1, by simp, hend⟩
    · obtain ⟨k, hk, hrun⟩ := ih t hbt (by rw [step_schedule s t hnext, hsched, List.tail_cons])
      refine ⟨k + 1, Nat.succ_le_succ hk, ?_⟩
      rwa [run_succ_of_next core k s t hnext]

/-- Settles O54: every field but memory is the reset event's own. -/
theorem resetSetsEveryRegister : Obligations.ResetSetsEveryRegister := by
  intro s
  have hword : ({ state := .idle, err := .none } : Status).word = 0#32 := by decide
  exact ⟨s.resetEvent, rfl, rfl, rfl, hword, rfl, rfl, resetEvent_mem_of_not_busy s⟩

end
